-- ==== Sys2Proof/Word.lean ====
section
/-!
DEFINITION. The words of the block: a byte, a record, a command word and the result bus.
All of them are unsigned bit patterns (00_scope.md R8). Bit `i` of a record is `rec[i]` of
00_scope.md R9: bit 127 is the most significant bit of byte 0.
-/

namespace Sys2Proof

/-- An unsigned 8-bit value (00_scope.md R8). -/
abbrev Byte := BitVec 8

/-- A RawRecord: exactly 16 bytes, 128 bits. Any 128-bit value is one, and it has no other content
(10_state.md R24; 40_raw_record.md R107 lets a model represent it as a plain 128-bit value). -/
abbrev Record := BitVec 128

/-- A command word, `REQ.CMD` (30_encoding.md R66, R72: always exactly 32 bits). -/
abbrev CmdWord := BitVec 32

/-- The result bus, `RSP.RESULT[127:0]` (30_encoding.md R76). -/
abbrev Bus := BitVec 128

end Sys2Proof
end

