-- ==== Sys2Proof/Config.lean ====
section
/-!
DEFINITION. The implementation parameters of 00_scope.md R7. The block has no configuration that a
program could change (10_state.md R23): each is a constant. LEN_W is OPEN: it is an argument of
`lenFits`, and the length itself is an unbounded natural. The model needs no free value, since no
operation has a result the spec leaves open.
-/

namespace Sys2Proof.Config

/-- RECORD_BYTES (00_scope.md R7). -/
@[simp] abbrev recordBytes : Nat := 16

/-- RECORD_BITS (00_scope.md R7). -/
@[simp] abbrev recordBits : Nat := 128

/-- FLAG_W (00_scope.md R7). -/
@[simp] abbrev flagW : Nat := 1

/-- OFFSET_W (00_scope.md R7; the source's prose figure 53 is corrected, 90_conflicts.md C1). -/
@[simp] abbrev offsetW : Nat := 54

/-- START_W (00_scope.md R7; the source's prose figure 53 is corrected, 90_conflicts.md C1). -/
@[simp] abbrev startW : Nat := 52

/-- COUNT_W (00_scope.md R7). -/
@[simp] abbrev countW : Nat := 21

/-- CMD_W (00_scope.md R7). -/
@[simp] abbrev cmdW : Nat := 32

/-- RESULT_W (00_scope.md R7). -/
@[simp] abbrev resultW : Nat := 128

/-- READ_BITS_MAX_N (00_scope.md R7). -/
@[simp] abbrev readBitsMaxN : Nat := 64

/-- Whether hardware whose byte count input is `lenW` bits wide can present a length (LEN_W is OPEN:
00_scope.md R7, 92_eei_decisions.md D16). The model itself takes every length. -/
def lenFits (lenW len : Nat) : Bool := decide (len < 2 ^ lenW)

end Sys2Proof.Config
end

