-- ==== Sys2Proof/Syntax.lean ====
section
/-!
DEFINITION. The block's operations as syntax: one constructor per row of spec/opcode_table.json, with
the command fields that 30_encoding.md R68 gives it, and the verdicts of a command word that spells
no operation.
-/

namespace Sys2Proof

/-- A command (30_encoding.md R67, R68). The operands other than command fields are on the request
port (10_state.md R27). -/
inductive Instr where
  /-- REC_FROM_BYTES, 40_raw_record.md R100. -/
  | recFromBytes
  /-- REC_TO_BYTES, 40_raw_record.md R102. -/
  | recToBytes
  /-- REC_BYTE with its byte index IDX, 40_raw_record.md R103; 4 bits, so never out of range (30_encoding.md R71). -/
  | recByte (idx : BitVec 4)
  /-- REC_EQ, 40_raw_record.md R104. -/
  | recEq
  /-- GET_FLAG, 42_extent_unpacker.md R140. -/
  | getFlag
  /-- GET_FILE_BOFFSET, 42_extent_unpacker.md R141. -/
  | getFileBoffset
  /-- GET_FSB_INDEX, 42_extent_unpacker.md R142. -/
  | getFsbIndex
  /-- GET_FSB_COUNT, 42_extent_unpacker.md R143. -/
  | getFsbCount
  /-- READ_BITS with its start position B, counted from the most significant bit, and its width N,
  41_bitfield_decoder.md R120. -/
  | readBits (b n : BitVec 7)
  deriving DecidableEq, Repr

/-- Why a command word is refused (60_exceptions.md R172): it spells no operation. -/
inductive IllegalReason where
  /-- RESERVED_OP, 30_encoding.md R70 (a). -/
  | reservedOp
  /-- RESERVED_BITS, 30_encoding.md R70 (b) and (c). -/
  | reservedBits
  /-- FIELD_RANGE, 30_encoding.md R70 (d). -/
  | fieldRange
  deriving DecidableEq, Repr

/-- The operation code of 30_encoding.md R67. -/
def Instr.op : Instr → BitVec 4
  | .recFromBytes => 0x0
  | .recToBytes => 0x1
  | .recByte _ => 0x2
  | .recEq => 0x3
  | .getFlag => 0x4
  | .getFileBoffset => 0x5
  | .getFsbIndex => 0x6
  | .getFsbCount => 0x7
  | .readBits _ _ => 0x8

end Sys2Proof
end

