-- ==== Sys2Proof/WellFormed.lean ====
section
/-!
DEFINITION. Which commands are operations of the block. The types already hold IDX to 4 bits and B and
N to 7 bits; the one check left is the range of a READ_BITS field (30_encoding.md R69;
41_bitfield_decoder.md R121).
-/

namespace Sys2Proof

/-- A command is well formed when it spells an operation: READ_BITS needs `N <= 64` and
`B + N <= 128` (41_bitfield_decoder.md R121); every other command is legal as it stands. -/
def Instr.wf : Instr → Bool
  | .readBits b n => decide (n.toNat ≤ 64) && decide (b.toNat + n.toNat ≤ 128)
  | .recFromBytes | .recToBytes | .recByte _ | .recEq
  | .getFlag | .getFileBoffset | .getFsbIndex | .getFsbCount => true

end Sys2Proof
end

