-- ==== Sys2Proof/Decode.lean ====
section
/-!
DEFINITION. The decoder of command words, total and rejecting by reason (30_encoding.md R73), the
encoder (30_encoding.md R66, R74), and the opcode table as rows of mask and match
(spec/opcode_table.json). A command is one 32-bit word that arrives on the request port: there is no
fetch, no byte order and no length to work out (R72; 20_memory.md R53).
-/

namespace Sys2Proof

/-- `OP`, bits 3..0 (30_encoding.md R66). -/
def cmdOp (w : CmdWord) : BitVec 4 := w.extractLsb' 0 4

/-- `IDX`, bits 7..4 (30_encoding.md R66). -/
def cmdIdx (w : CmdWord) : BitVec 4 := w.extractLsb' 4 4

/-- `B`, bits 14..8 (30_encoding.md R66). -/
def cmdB (w : CmdWord) : BitVec 7 := w.extractLsb' 8 7

/-- `RSV1`, bit 15 (30_encoding.md R66). -/
def cmdRsv1 (w : CmdWord) : BitVec 1 := w.extractLsb' 15 1

/-- `N`, bits 22..16 (30_encoding.md R66). -/
def cmdN (w : CmdWord) : BitVec 7 := w.extractLsb' 16 7

/-- `RSV2`, bits 31..23 (30_encoding.md R66). -/
def cmdRsv2 (w : CmdWord) : BitVec 9 := w.extractLsb' 23 9

/-- The command an operation code below 0x9 stands for, with the fields it uses (30_encoding.md R67,
R68). -/
def instrOfFields (op idx : BitVec 4) (b n : BitVec 7) : Option Instr :=
  match op.toNat with
  | 0 => some .recFromBytes
  | 1 => some .recToBytes
  | 2 => some (.recByte idx)
  | 3 => some .recEq
  | 4 => some .getFlag
  | 5 => some .getFileBoffset
  | 6 => some .getFsbIndex
  | 7 => some .getFsbCount
  | 8 => some (.readBits b n)
  | _ => none

/-- The decoder of 30_encoding.md R73: the checks in the order written there, the first that applies
giving the reason (60_exceptions.md R173). Its first check, `op >= 0x9`, is `instrOfFields` finding no
operation for the code. -/
def decode (w : CmdWord) : Except IllegalReason Instr :=
  match instrOfFields (cmdOp w) (cmdIdx w) (cmdB w) (cmdN w) with
  | none => .error .reservedOp
  | some i =>
    if cmdRsv1 w ≠ 0 ∨ cmdRsv2 w ≠ 0 then .error .reservedBits
    else if cmdOp w ≠ 0x2 ∧ cmdIdx w ≠ 0 then .error .reservedBits
    else if cmdOp w ≠ 0x8 ∧ (cmdB w ≠ 0 ∨ cmdN w ≠ 0) then .error .reservedBits
    else if cmdOp w = 0x8 ∧ ((cmdN w).toNat > 64 ∨ (cmdB w).toNat + (cmdN w).toNat > 128) then
      .error .fieldRange
    else .ok i

/-- The command word of a command (30_encoding.md R74, its column "command word"). -/
def encode : Instr → CmdWord
  | .recFromBytes => 0x00000000
  | .recToBytes => 0x00000001
  | .recByte idx => (idx.setWidth 32 <<< 4) ||| 0x2
  | .recEq => 0x00000003
  | .getFlag => 0x00000004
  | .getFileBoffset => 0x00000005
  | .getFsbIndex => 0x00000006
  | .getFsbCount => 0x00000007
  | .readBits b n => (n.setWidth 32 <<< 16) ||| (b.setWidth 32 <<< 8) ||| 0x8

/-- The decoder read as spec/opcode_table.json numbers an instruction's bits: bit 0 is the least
significant bit of the command word. A command is never longer than 32 bits (30_encoding.md R72). -/
def decodeTableWord (nbits w : Nat) : Option Instr :=
  if nbits ≤ 32 then
    match decode (BitVec.ofNat 32 (w % 2 ^ nbits)) with
    | .ok i => some i
    | .error _ => none
  else none

/-- One row of spec/opcode_table.json: a word belongs to the row when `word & mask = value`. -/
structure OpcodeRow where
  mnemonic : String
  mask : CmdWord
  value : CmdWord
  deriving DecidableEq, Repr

/-- Whether a word belongs to a row. -/
def OpcodeRow.matches (row : OpcodeRow) (w : CmdWord) : Bool := w &&& row.mask == row.value

/-- The row of spec/opcode_table.json that a command belongs to, its mask and match copied from
there. -/
def tableRow : Instr → OpcodeRow
  | .recFromBytes => ⟨"REC_FROM_BYTES", 0xFFFFFFFF, 0x00000000⟩
  | .recToBytes => ⟨"REC_TO_BYTES", 0xFFFFFFFF, 0x00000001⟩
  | .recByte _ => ⟨"REC_BYTE", 0xFFFFFF0F, 0x00000002⟩
  | .recEq => ⟨"REC_EQ", 0xFFFFFFFF, 0x00000003⟩
  | .getFlag => ⟨"GET_FLAG", 0xFFFFFFFF, 0x00000004⟩
  | .getFileBoffset => ⟨"GET_FILE_BOFFSET", 0xFFFFFFFF, 0x00000005⟩
  | .getFsbIndex => ⟨"GET_FSB_INDEX", 0xFFFFFFFF, 0x00000006⟩
  | .getFsbCount => ⟨"GET_FSB_COUNT", 0xFFFFFFFF, 0x00000007⟩
  | .readBits _ _ => ⟨"READ_BITS", 0xFF8080FF, 0x00000008⟩

end Sys2Proof
end

