-- ==== Sys2Proof/Machine/State.lean ====
section
/-!
DEFINITION. What stands on the block's ports. THE BLOCK ITSELF KEEPS NOTHING (10_state.md R20 to R26,
R29, R30): no register, no program counter, no flag, no memory, no mode. So State holds the requests
its clients present (REQ.*, 10_state.md R27), the responses it has given (RSP.*, 10_state.md R28), and,
as plain data, what the environment decides: the order of service and the arrival of reset
(20_memory.md R50, 70_reset_and_hazards.md R200; log 1, 5, 6).
-/

namespace Sys2Proof.Machine

/-- One request on the request port (10_state.md R27). REQ.LEN is the number of bytes of REQ.BYTES
and is stored as the length of that list (log 2). A bus the operation does not use may hold anything
and is ignored (92_eei_decisions.md D23; log 3). -/
structure Request where
  /-- `REQ.CMD`, the command word. -/
  cmd : CmdWord
  /-- `REQ.REC_A`, the first record operand. -/
  recA : Record
  /-- `REQ.REC_B`, the second record operand. -/
  recB : Record
  /-- `REQ.BYTES`, element 0 first. -/
  bytes : List Byte
  deriving DecidableEq, Repr

/-- The block's error kinds. There is exactly one (60_exceptions.md R170, R171). -/
inductive CoreError where
  /-- InvalidLength, raised by REC_FROM_BYTES alone (60_exceptions.md R170). -/
  | invalidLength
  deriving DecidableEq, Repr

/-- A response (10_state.md R28): OK with a result, or an error with none, so that no claim can read
a result after InvalidLength (93_implementation_defined.md I1; log 7). -/
inductive Response where
  /-- `RSP.STATUS` = 0, with `RSP.RESULT`. -/
  | ok (result : Bus)
  /-- `RSP.STATUS` = 1; `RSP.RESULT` carries no value. -/
  | err (e : CoreError)
  deriving DecidableEq, Repr

/-- A request as a client presents it. The client number routes the response back and nothing else:
the block reads no identifier (60_exceptions.md R180). -/
structure Presented where
  client : Nat
  request : Request
  deriving DecidableEq, Repr

/-- A response as it reaches the client that sent the request (92_eei_decisions.md D13). -/
structure Delivered where
  client : Nat
  response : Response
  deriving DecidableEq, Repr

/-- What the environment decides for one step (20_memory.md R50; 70_reset_and_hazards.md R200). -/
inductive Turn where
  /-- The oldest waiting request of this client is served; if it has none, the oldest of all (log 5). -/
  | serve (client : Nat)
  /-- Reset arrives with no request in progress (log 6). -/
  | reset
  /-- Reset arrives while the request that `serve client` would have served is in progress: that
  request gets no response (70_reset_and_hazards.md R200; log 6). -/
  | resetDuring (client : Nat)
  deriving DecidableEq, Repr

/-- The whole state of the model: the ports and the environment's choices. -/
structure State where
  /-- Requests presented and not yet answered, oldest first. -/
  pending : List Presented
  /-- The environment's choices for the coming steps; when it is empty the oldest request is served. -/
  turns : List Turn
  /-- The responses given, oldest first: the observation of the run (70_reset_and_hazards.md R205). -/
  delivered : List Delivered
  deriving DecidableEq, Repr

/-- Why a meaning can fault. Both are internal invariant violations of 60_exceptions.md R176, which no
run reaches (a step never faults); a model that reaches one must fault. Safe. -/
inductive Fault where
  /-- Raised by every meaning when no request is in service, so that there are no operands: `exec` was
  called outside a step. Safe (log 9). -/
  | noRequest
  /-- Raised by `execReadBits` on a field that is not legal (41_bitfield_decoder.md R121): the decoder
  refuses its word, so `exec` was called outside a step. Safe (log 9). -/
  | illegalField
  deriving DecidableEq, Repr

/-- Why a step can be refused. -/
inductive Refusal where
  /-- Raised by an arm of `exec` whose instruction has no meaning yet. Safe. No arm raises it. -/
  | notModelled (mnemonic : String)
  /-- Raised by a step whose command word spells no operation (60_exceptions.md R172): the request gets
  no response, and the run ends refused (70_reset_and_hazards.md R205). Safe (log 8). -/
  | illegalCommand (reason : IllegalReason)
  deriving DecidableEq, Repr

/-- After reset: no request has been presented and no response exists (10_state.md R30,
70_reset_and_hazards.md R200, R201). That the environment has made no choice yet is a DESIGN CHOICE
(log 11). -/
def State.reset : State := { pending := [], turns := [], delivered := [] }

end Sys2Proof.Machine
end

