-- ==== Sys2Proof/Machine/Ops.lean ====
section
/-!
DEFINITION. The named operations the meanings share: the byte access of a record (00_scope.md R11), the
two ways a request ends (00_scope.md R11: `respond OK`, `raise InvalidLength`), and the handling of the
request and response ports. Delivering an error is an ordinary response: nothing is saved and control
goes nowhere (60_exceptions.md R174), and there is no return from it (R175).
-/

namespace Sys2Proof.Machine

/-! ### Records as bytes -/

/-- `Byte(rec, k) = rec[127-8k : 120-8k]` (00_scope.md R11; 20_memory.md R40, R42). The index is 4 bits
wide, so it is never out of range (20_memory.md R41). -/
def byteAt (r : Record) (k : BitVec 4) : Byte := r.extractLsb' (120 - 8 * k.toNat) 8

/-- The 16 byte indices in order (20_memory.md R40). -/
def byteIndices : List (BitVec 4) := [0, 1, 2, 3, 4, 5, 6, 7, 8, 9, 10, 11, 12, 13, 14, 15]

/-- A record as the sequence of its bytes, byte 0 first (20_memory.md R44). -/
def recordBytes (r : Record) : List Byte := byteIndices.map (byteAt r)

/-- `BYTES[0] ++ BYTES[1] ++ ...` on 128 bits, the first element highest (40_raw_record.md R100;
20_memory.md R44). -/
def concatBytes (bs : List Byte) : Record := bs.foldl (fun acc b => (acc <<< 8) ||| b.setWidth 128) 0

/-- `zext_128` (00_scope.md R11; 30_encoding.md R76): a result of its natural width on the result bus. -/
def zextBus {w : Nat} (v : BitVec w) : Bus := v.setWidth 128

/-! ### Ending a request -/

/-- `respond OK(v)` (00_scope.md R11). -/
def respondOK (v : Bus) : Response := .ok v

/-- `raise InvalidLength()` (00_scope.md R11; 60_exceptions.md R170): the error is the request's own
response, it carries no result, and it reports no length. -/
def raiseInvalidLength : Response := .err .invalidLength

/-- `RSP.STATUS`: 0 = OK, 1 = INVALID_LENGTH (10_state.md R28; 30_encoding.md R76). -/
def Response.status : Response → BitVec 1
  | .ok _ => 0
  | .err .invalidLength => 1

/-- `RSP.RESULT`, where the response has one (10_state.md R28). -/
def Response.result? : Response → Option Bus
  | .ok v => some v
  | .err _ => none

/-! ### The ports -/

/-- Which waiting request a turn of `client` serves: the oldest of that client, else the oldest of all
(log 5). -/
def pickIdx (client : Option Nat) (ps : List Presented) : Nat :=
  match client with
  | none => 0
  | some c =>
    match ps.findIdx? (fun p => p.client == c) with
    | some k => k
    | none => 0

/-- The client that the next turn names, if it names one. -/
def State.turnClient (s : State) : Option Nat :=
  match s.turns with
  | .serve c :: _ => some c
  | .resetDuring c :: _ => some c
  | .reset :: _ => none
  | [] => none

/-- The place in `pending` of the request in service. -/
def State.serviceIdx (s : State) : Nat := pickIdx s.turnClient s.pending

/-- The request in service, if any client has presented one. -/
def State.inService (s : State) : Option Presented := s.pending[s.serviceIdx]?

/-- The turn is used up; nothing else changes. -/
def State.passTurn (s : State) : State := { s with turns := s.turns.tail }

/-- The turn is used up and the request in service leaves the port without a response. -/
def State.retire (s : State) : State :=
  { s with pending := s.pending.eraseIdx s.serviceIdx, turns := s.turns.tail }

/-- The request in service leaves the port and its client receives the response (R50, D13). -/
def State.deliver (s : State) (client : Nat) (r : Response) : State :=
  { s.retire with delivered := s.delivered ++ [⟨client, r⟩] }

/-- One request, from its operands to its response (70_reset_and_hazards.md R203). With no request in
service there are no operands: an internal invariant violation, which faults (60_exceptions.md R176;
log 9). -/
def State.respondWith (s : State) (meaning : Request → Response) : Host.Outcome State Fault Refusal :=
  match s.inService with
  | none => .fault .noRequest
  | some p => .next (s.deliver p.client (meaning p.request))

/-- The clients' side of the port: a client presents one more request (00_scope.md R16). -/
def State.present (s : State) (client : Nat) (q : Request) : State :=
  { s with pending := s.pending ++ [⟨client, q⟩] }

/-- How many requests of a client wait. -/
def State.waiting (s : State) (client : Nat) : Nat := s.pending.countP fun p => p.client == client

/-- The operands of a request whose host drives none of them. Used only where a request must be made up
(`withFetchWord`, the assembler's unused buses; log 11, 15): no operation depends on a bus it does not
use. -/
def undrivenRequest : Request :=
  { cmd := 0, recA := 0, recB := 0, bytes := List.replicate 16 0 }

end Sys2Proof.Machine
end

