-- ==== Sys2Proof/Machine/Operands.lean ====
section
/-!
DEFINITION. The operands of a request (10_state.md R27; 30_encoding.md R68): the byte count, and the
request typed by its operation, as the tagged union that R27 asks for, which carries exactly that
operation's operands.
-/

namespace Sys2Proof.Machine

/-- `REQ.LEN`, an unbounded natural number (10_state.md R27; 92_eei_decisions.md D16). -/
def Request.len (q : Request) : Nat := q.bytes.length

/-- A request typed by its operation: each constructor carries the operands and command fields that
30_encoding.md R68 lists for it, and no others. -/
inductive Call where
  | recFromBytes (bytes : List Byte)
  | recToBytes (a : Record)
  | recByte (a : Record) (idx : BitVec 4)
  | recEq (a b : Record)
  | getFlag (a : Record)
  | getFileBoffset (a : Record)
  | getFsbIndex (a : Record)
  | getFsbCount (a : Record)
  | readBits (a : Record) (b n : BitVec 7)
  deriving DecidableEq, Repr

/-- The operands an operation reads from the request port (30_encoding.md R68, last column). -/
def callOf (i : Instr) (q : Request) : Call :=
  match i with
  | .recFromBytes => .recFromBytes q.bytes
  | .recToBytes => .recToBytes q.recA
  | .recByte idx => .recByte q.recA idx
  | .recEq => .recEq q.recA q.recB
  | .getFlag => .getFlag q.recA
  | .getFileBoffset => .getFileBoffset q.recA
  | .getFsbIndex => .getFsbIndex q.recA
  | .getFsbCount => .getFsbCount q.recA
  | .readBits b n => .readBits q.recA b n

end Sys2Proof.Machine
end

