-- ==== Sys2Proof/Machine/BitReader.lean ====
section
/-!
DEFINITION. READ_BITS, the parametrised bit-range reader (41_bitfield_decoder.md R120, R121), and the
two byte-wise forms of the same reader that R122 describes. The meaning uses the slice; the two forms
are the source's algorithm, stated equal to it in the obligations.
-/

namespace Sys2Proof.Machine

/-- A READ_BITS field is legal (41_bitfield_decoder.md R121): it lies inside the record and fits in 64
bits. -/
def fieldLegal (b n : BitVec 7) : Bool :=
  decide (n.toNat ≤ Config.readBitsMaxN) && decide (b.toNat + n.toNat ≤ Config.recordBits)

/-- The N bits of a record that start at position B, counted from the most significant bit
(41_bitfield_decoder.md R120): `rec[127-B : 128-B-N]`, and 0 when N = 0. -/
def readBitsValue (a : Record) (b n : BitVec 7) : Bus :=
  if n = 0 then 0 else zextBus (a.extractLsb' (128 - b.toNat - n.toNat) n.toNat)

/-- READ_BITS on a legal field (41_bitfield_decoder.md R120). -/
def readBitsResponse (a : Record) (b n : BitVec 7) : Response := respondOK (readBitsValue a b n)

/-- The meaning of READ_BITS (41_bitfield_decoder.md R120). A field that is not legal is given no value
(R121): the decoder has refused its word, and a meaning that is handed one all the same faults
(60_exceptions.md R176; log 9). -/
def execReadBits (b n : BitVec 7) (s : State) : Host.Outcome State Fault Refusal :=
  if fieldLegal b n then s.respondWith fun q => readBitsResponse q.recA b n
  else .fault .illegalField

/-! ### The byte-wise forms of 41_bitfield_decoder.md R122 -/

/-- The byte numbers `first .. last` of a loop, `count` of them from `first`. -/
def byteRun : Nat → Nat → List (BitVec 4)
  | _, 0 => []
  | first, count + 1 => BitVec.ofNat 4 first :: byteRun (first + 1) count

/-- The accumulator of R122 just before its final shift, on unbounded integers: the first byte without
the `b % 8` bits above the field, then every further byte up to the last one touched. -/
def accumulateWhole (a : Record) (b n : Nat) : Nat :=
  let first := b / 8
  let last := (b + n - 1) / 8
  (byteRun (first + 1) (last - first)).foldl
    (fun (acc : Nat) k => (acc <<< 8) ||| (byteAt a k).toNat)
    ((byteAt a (BitVec.ofNat 4 first)).toNat &&& (0xFF >>> (b % 8)))

/-- R122 on unbounded integers, for N at least 1: whole bytes in, then one logical right shift that
drops the bits below the field. -/
def readBitsWhole (a : Record) (b n : Nat) : Nat :=
  accumulateWhole a b n >>> (8 * ((b + n - 1) / 8 + 1) - (b + n))

/-- R122 as a 64-bit implementation must write it, for N at least 1: the last byte, unless it is also
the first, is shifted in only in part ("shift left s bits and OR in the top s bits of byte k"). -/
def readBits64 (a : Record) (b n : Nat) : BitVec 64 :=
  let first := b / 8
  let last := (b + n - 1) / 8
  let t := 8 * (last + 1) - (b + n)
  let head := (byteAt a (BitVec.ofNat 4 first) &&& (0xFF#8 >>> (b % 8))).setWidth 64
  if first = last then head >>> t
  else
    let acc := (byteRun (first + 1) (last - first - 1)).foldl
      (fun (acc : BitVec 64) k => (acc <<< 8) ||| (byteAt a k).setWidth 64) head
    (acc <<< (8 - t)) ||| ((byteAt a (BitVec.ofNat 4 last)) >>> t).setWidth 64

end Sys2Proof.Machine
end

