-- ==== Sys2Proof/Machine/ExtentUnpacker.lean ====
section
/-!
DEFINITION. The four field accessors of 42_extent_unpacker.md, each the source's own shift-and-accumulate
algorithm as its rule transcribes it. The accumulator is a temporary of 64 bits inside one operation
(10_state.md R29; log 13). Bytes are unsigned and every shift is logical (90_conflicts.md C6). Each
accessor is computed anew from the record on every request (R147) and is total on every record (R144).
-/

namespace Sys2Proof.Machine

/-- The accumulator of 42_extent_unpacker.md R141: "an unsigned integer of at least 64 bits" (log 13). -/
abbrev Accum := BitVec 64

/-- `acc <- (acc << 8) | Byte(rec, k)`. -/
def shiftInByte (r : Record) (acc : Accum) (k : BitVec 4) : Accum := (acc <<< 8) ||| (byteAt r k).setWidth 64

/-- `acc <- (acc << s) | (Byte(rec, k) >> (8 - s))`: the top s bits of byte k. -/
def shiftInTopBits (r : Record) (acc : Accum) (k : BitVec 4) (s : Nat) : Accum :=
  (acc <<< s) ||| (byteAt r k >>> (8 - s)).setWidth 64

/-- `get_flag` (42_extent_unpacker.md R140): the top bit of byte 0. -/
def getFlagValue (r : Record) : Byte := byteAt r 0 >>> 7

/-- `get_file_boffset` (42_extent_unpacker.md R141): low 7 bits of byte 0, bytes 1 to 5, top 7 bits of
byte 6. -/
def getFileBoffsetValue (r : Record) : Accum :=
  let acc := (byteAt r 0 &&& 0x7F).setWidth 64
  let acc := [1, 2, 3, 4, 5].foldl (shiftInByte r) acc
  shiftInTopBits r acc 6 7

/-- `get_fsb_index` (42_extent_unpacker.md R142): low bit of byte 6, bytes 7 to 12, top 3 bits of byte
13. -/
def getFsbIndexValue (r : Record) : Accum :=
  let acc := (byteAt r 6 &&& 0x01).setWidth 64
  let acc := [7, 8, 9, 10, 11, 12].foldl (shiftInByte r) acc
  shiftInTopBits r acc 13 3

/-- `get_fsb_count` (42_extent_unpacker.md R143): low 5 bits of byte 13, bytes 14 and 15. -/
def getFsbCountValue (r : Record) : Accum :=
  let acc := (byteAt r 13 &&& 0x1F).setWidth 64
  [14, 15].foldl (shiftInByte r) acc

/-- GET_FLAG (42_extent_unpacker.md R140): 1 = Unwritten, 0 = Normal. -/
def getFlagResponse (a : Record) : Response := respondOK (zextBus (getFlagValue a))

/-- GET_FILE_BOFFSET (42_extent_unpacker.md R141). -/
def getFileBoffsetResponse (a : Record) : Response := respondOK (zextBus (getFileBoffsetValue a))

/-- GET_FSB_INDEX (42_extent_unpacker.md R142). -/
def getFsbIndexResponse (a : Record) : Response := respondOK (zextBus (getFsbIndexValue a))

/-- GET_FSB_COUNT (42_extent_unpacker.md R143). -/
def getFsbCountResponse (a : Record) : Response := respondOK (zextBus (getFsbCountValue a))

/-- The meaning of GET_FLAG (42_extent_unpacker.md R140). -/
def execGetFlag (s : State) : Host.Outcome State Fault Refusal :=
  s.respondWith fun q => getFlagResponse q.recA

/-- The meaning of GET_FILE_BOFFSET (42_extent_unpacker.md R141). -/
def execGetFileBoffset (s : State) : Host.Outcome State Fault Refusal :=
  s.respondWith fun q => getFileBoffsetResponse q.recA

/-- The meaning of GET_FSB_INDEX (42_extent_unpacker.md R142). -/
def execGetFsbIndex (s : State) : Host.Outcome State Fault Refusal :=
  s.respondWith fun q => getFsbIndexResponse q.recA

/-- The meaning of GET_FSB_COUNT (42_extent_unpacker.md R143). -/
def execGetFsbCount (s : State) : Host.Outcome State Fault Refusal :=
  s.respondWith fun q => getFsbCountResponse q.recA

end Sys2Proof.Machine
end

