-- ==== Sys2Proof/Machine/RawRecord.lean ====
section
/-!
DEFINITION. The four operations of 40_raw_record.md: REC_FROM_BYTES, REC_TO_BYTES, REC_BYTE, REC_EQ.
Each has its response as a function of its operands, and its meaning, which answers the request in
service with it. None writes a record (R106) and none writes a flag (10_state.md R22).
-/

namespace Sys2Proof.Machine

/-- REC_FROM_BYTES (40_raw_record.md R100, R101): length 16 and no other; never truncated, padded or
partly built. -/
def recFromBytesResponse (bs : List Byte) : Response :=
  if bs.length ≠ Config.recordBytes then raiseInvalidLength else respondOK (concatBytes bs)

/-- REC_TO_BYTES (40_raw_record.md R102): the 16 bytes, byte k at bits `127-8k..120-8k` of the bus. -/
def recToBytesResponse (a : Record) : Response := respondOK a

/-- REC_BYTE (40_raw_record.md R103). -/
def recByteResponse (a : Record) (idx : BitVec 4) : Response := respondOK (zextBus (byteAt a idx))

/-- The byte by byte comparison of 40_raw_record.md R104. -/
def bytewiseEq (a b : Record) : Bool := byteIndices.all fun k => byteAt a k == byteAt b k

/-- REC_EQ (40_raw_record.md R104): 1 = equal, 0 = not equal. -/
def recEqResponse (a b : Record) : Response := respondOK (zextBus (if bytewiseEq a b then 1#1 else 0#1))

/-- The meaning of REC_FROM_BYTES (40_raw_record.md R100). -/
def execRecFromBytes (s : State) : Host.Outcome State Fault Refusal :=
  s.respondWith fun q => recFromBytesResponse q.bytes

/-- The meaning of REC_TO_BYTES (40_raw_record.md R102). -/
def execRecToBytes (s : State) : Host.Outcome State Fault Refusal :=
  s.respondWith fun q => recToBytesResponse q.recA

/-- The meaning of REC_BYTE (40_raw_record.md R103). -/
def execRecByte (idx : BitVec 4) (s : State) : Host.Outcome State Fault Refusal :=
  s.respondWith fun q => recByteResponse q.recA idx

/-- The meaning of REC_EQ (40_raw_record.md R104). -/
def execRecEq (s : State) : Host.Outcome State Fault Refusal :=
  s.respondWith fun q => recEqResponse q.recA q.recB

end Sys2Proof.Machine
end

