-- ==== Sys2Proof/Machine/Dispatch.lean ====
section
/-! DEFINITION. The dispatch of a command to its meaning, one arm per row of spec/opcode_table.json. -/

namespace Sys2Proof.Machine

def exec (i : Instr) (s : State) : Host.Outcome State Fault Refusal :=
  match i with
  | .recFromBytes => Sys2Proof.Machine.execRecFromBytes s
  | .recToBytes => Sys2Proof.Machine.execRecToBytes s
  | .recByte idx => Sys2Proof.Machine.execRecByte idx s
  | .recEq => Sys2Proof.Machine.execRecEq s
  | .getFlag => Sys2Proof.Machine.execGetFlag s
  | .getFileBoffset => Sys2Proof.Machine.execGetFileBoffset s
  | .getFsbIndex => Sys2Proof.Machine.execGetFsbIndex s
  | .getFsbCount => Sys2Proof.Machine.execGetFsbCount s
  | .readBits b n => Sys2Proof.Machine.execReadBits b n s

end Sys2Proof.Machine
end

