-- ==== Sys2Proof/Machine/Step.lean ====
section
/-!
DEFINITION. One step: one request, from request to response (70_reset_and_hazards.md R203), or reset
arriving (R200), or nothing at all when no request waits.
-/

namespace Sys2Proof.Machine

/-- One step of the machine.
* Reset with nothing in progress has no effect (70_reset_and_hazards.md R200; log 6).
* Reset during a request: that request gets no response (R200; log 6). Its command word is not decoded, so a
  word that spells no operation is lost with it and not refused: the model's choice, which the spec leaves
  open (log 6).
* No request waiting: nothing reaches the block, and it does nothing (60_exceptions.md R177; log 4).
* Otherwise the command word in service is decoded; a refused word gets no response and ends the run
  (60_exceptions.md R172, R173; 70_reset_and_hazards.md R205), and a legal one has its meaning. -/
def step (s : State) : Host.Outcome State Fault Refusal :=
  match s.turns.head? with
  | some .reset => .next s.passTurn
  | some (.resetDuring _) => .next s.retire
  | _ =>
    match s.inService with
    | none => .next s.passTurn
    | some p =>
      match decode p.request.cmd with
      | .error r => .refused (.illegalCommand r)
      | .ok i => exec i s

/-- The state in which the very next step serves a request with this command word: a client presents it
ahead of all others and its turn comes next (the block fetches nothing: its command words arrive on the
request port, 20_memory.md R53). Its operands are those of the request in service, or undriven buses
where there is none (log 11). -/
def State.withFetchWord (s : State) (nbits w : Nat) : State :=
  let ports := match s.inService with
    | some p => p.request
    | none => undrivenRequest
  { s with
    pending := ⟨0, { ports with cmd := BitVec.ofNat 32 (w % 2 ^ nbits) }⟩ :: s.pending
    turns := .serve 0 :: s.turns }

end Sys2Proof.Machine
end

