-- ==== Sys2Proof/Machine/Assembler.lean ====
section
/-!
DEFINITION. The host's side of the interface as the spec's assembler describes it (30_encoding.md R74;
00_scope.md R12, R16): a line `name := MNEMONIC operands` makes one request, and the host variable
receives the response. Host variables live in the host, never in the block. This is abstract syntax:
reading its text is the host's (00_scope.md R6; log 15). Nothing here is used by `step`.
-/

namespace Sys2Proof.Machine

/-- A record operand: a host variable bound to a record, or a record literal (30_encoding.md R74). Host
variables are numbered. -/
inductive RecordRef where
  | var (name : Nat)
  | lit (r : Record)
  deriving DecidableEq, Repr

/-- The right-hand side of a line (30_encoding.md R74). `idx`, `b` and `n` are written as decimal
integers, so here they are unbounded. -/
inductive AsmOp where
  | recFromBytes (bytes : List Byte)
  | recToBytes (a : RecordRef)
  | recByte (a : RecordRef) (idx : Nat)
  | recEq (a b : RecordRef)
  | getFlag (a : RecordRef)
  | getFileBoffset (a : RecordRef)
  | getFsbIndex (a : RecordRef)
  | getFsbCount (a : RecordRef)
  | readBits (a : RecordRef) (b n : Nat)
  deriving DecidableEq, Repr

/-- A line `name := MNEMONIC operands` (30_encoding.md R74). -/
structure AsmLine where
  name : Nat
  op : AsmOp
  deriving DecidableEq, Repr

/-- A host variable with the response it received, and whether that response is a record (the result of
REC_FROM_BYTES or REC_TO_BYTES, 30_encoding.md R76). -/
structure HostVar where
  name : Nat
  isRecord : Bool
  response : Response
  deriving DecidableEq, Repr

/-- The command that a line spells, if its integers fit their command fields. A byte index of 16 or more
is refused, never given a value (92_eei_decisions.md D15, 93_implementation_defined.md I5); B and N are 7
bits wide, and whether the field they name is legal is the decoder's business (30_encoding.md R70). -/
def AsmOp.instr : AsmOp → Option Instr
  | .recFromBytes _ => some .recFromBytes
  | .recToBytes _ => some .recToBytes
  | .recByte _ idx => if idx < 16 then some (.recByte (BitVec.ofNat 4 idx)) else none
  | .recEq _ _ => some .recEq
  | .getFlag _ => some .getFlag
  | .getFileBoffset _ => some .getFileBoffset
  | .getFsbIndex _ => some .getFsbIndex
  | .getFsbCount _ => some .getFsbCount
  | .readBits _ b n =>
    if b < 128 ∧ n < 128 then some (.readBits (BitVec.ofNat 7 b) (BitVec.ofNat 7 n)) else none

/-- Whether the response to this operation, when OK, is a record (30_encoding.md R76). -/
def AsmOp.yieldsRecord : AsmOp → Bool
  | .recFromBytes _ => true
  | .recToBytes _ => true
  | _ => false

/-- The record an operand stands for: a literal, or the record its variable last received. A variable
that holds no record (none at all, an error, or another kind of result) stands for none. -/
def RecordRef.resolve (vars : List HostVar) : RecordRef → Option Record
  | .lit r => some r
  | .var x =>
    match vars.find? (fun v => v.name == x) with
    | some v => if v.isRecord then v.response.result? else none
    | none => none

/-- The operands of a line on the request port; buses its operation does not use stay undriven
(92_eei_decisions.md D23). -/
def AsmOp.operands (vars : List HostVar) : AsmOp → Option Request
  | .recFromBytes bytes => some { undrivenRequest with bytes := bytes }
  | .recEq a b =>
    match a.resolve vars, b.resolve vars with
    | some x, some y => some { undrivenRequest with recA := x, recB := y }
    | _, _ => none
  | .recToBytes a | .recByte a _ | .getFlag a | .getFileBoffset a | .getFsbIndex a | .getFsbCount a
  | .readBits a _ _ =>
    match a.resolve vars with
    | some x => some { undrivenRequest with recA := x }
    | none => none

/-- The request a line makes: its command word (30_encoding.md R74) and its operands. -/
def AsmOp.assemble (vars : List HostVar) (op : AsmOp) : Option Request :=
  match op.instr, op.operands vars with
  | some i, some q => some { q with cmd := encode i }
  | _, _ => none

/-- Why a host stops: a line that is no request, or a refusal, which ends the run (70_reset_and_hazards.md
R205). -/
inductive HostStop where
  /-- The line's integers do not fit, or an operand stands for no record. -/
  | notARequest
  /-- The block refused a command word, this line's or that of a request served before it. -/
  | refused (r : Refusal)
  /-- The block faulted, which no step does (60_exceptions.md R176). -/
  | fault (r : Fault)
  /-- The steps that the host was allowed ran out before its response came. `runLine` allows as many as could
  be needed, so no line stops so (log 15). -/
  | notAnswered
  deriving DecidableEq, Repr

/-- The host waits for the response to the request `q` that `client` presented last. It lets the block take
step after step, whatever other requests those serve and whatever bare resets come between, until no request of
`client` waits, which is when `q` has left the port: the client's requests are served oldest first (log 5), so
`q` is the last to leave. If that step gave a response, it is the response to `q`. If it gave none, reset took
`q`, and the host presents it again (70_reset_and_hazards.md R200), behind whatever waits then. It stops at a
refusal. That the host waits, and where it presents again, is the model's choice (log 15). `fuel` bounds the
steps. -/
def awaitResponse (client : Nat) (q : Request) : Nat → State → Except HostStop (State × Response)
  | 0, _ => .error .notAnswered
  | fuel + 1, s =>
    match step s with
    | .refused r => .error (.refused r)
    | .fault r => .error (.fault r)
    | .next t =>
      if t.waiting client = 0 then
        match t.delivered.drop s.delivered.length with
        | d :: _ => .ok (t, d.response)
        | [] => awaitResponse client q fuel (t.present client q)
      else awaitResponse client q fuel t

/-- The host runs one line as a client: it presents the request behind whatever waits already, waits, and the
variable receives the response to THAT request (30_encoding.md R74; 00_scope.md R16). The spec does not say what
the host does with a response or while it waits (70_reset_and_hazards.md R205): that is the model's choice
(log 15). As many steps are allowed as there are turns and requests, its own among them; the newest binding of a
variable stands first. -/
def runLine (client : Nat) (line : AsmLine) (s : State) (vars : List HostVar) :
    Except HostStop (State × List HostVar) :=
  match line.op.assemble vars with
  | none => .error .notARequest
  | some q =>
    match awaitResponse client q (s.turns.length + s.pending.length + 1) (s.present client q) with
    | .error e => .error e
    | .ok (t, r) => .ok (t, ⟨line.name, line.op.yieldsRecord, r⟩ :: vars)

/-- The host runs a program, one request a line, each line once the one before it is answered. -/
def runLines (client : Nat) : List AsmLine → State → List HostVar → Except HostStop (State × List HostVar)
  | [], s, vars => .ok (s, vars)
  | line :: rest, s, vars =>
    match runLine client line s vars with
    | .error e => .error e
    | .ok (t, vars') => runLines client rest t vars'

end Sys2Proof.Machine
end

