-- ==== Sys2Proof/Machine/Flags.lean ====
section
/-!
DEFINITION. The block has no status flags, condition codes or predicates, and no operation writes one
(10_state.md R22). What the spec calls `flag` is a data field of a record: its two values are here
(30_encoding.md R64).
-/

namespace Sys2Proof.Machine

/-- The two values of a record's `flag` field (30_encoding.md R64). -/
inductive ExtentFlag where
  | normal
  | unwritten
  deriving DecidableEq, Repr

/-- Bit value 1 is Unwritten, 0 is Normal (30_encoding.md R64). -/
def ExtentFlag.ofBit (b : BitVec 1) : ExtentFlag := if b = 1 then .unwritten else .normal

/-- The bit of a flag value, which is also its value on the result bus (30_encoding.md R64). -/
def ExtentFlag.toBit : ExtentFlag → BitVec 1
  | .normal => 0
  | .unwritten => 1

end Sys2Proof.Machine
end

