-- ==== Sys2Proof/Machine/Format.lean ====
section
/-!
DEFINITION. The record format (30_encoding.md R60 to R65): where each of the four fields lies in a
record, the value of a field as a slice of the record, the fields as one derived view, and the record
that four field values make up. None of it is state (10_state.md R25), and building a record from its
fields is no operation of the block (00_scope.md R6): it serves the law of 42_extent_unpacker.md R145.
-/

namespace Sys2Proof.Machine

/-- The four fields of a record, under the source's names (30_encoding.md R60). -/
inductive Field where
  | flag
  | fileBlockOffset
  | startingBlockNumber
  | blockCount
  deriving DecidableEq, Repr

/-- The width of a field (30_encoding.md R60; 00_scope.md R7). -/
def Field.width : Field → Nat
  | .flag => Config.flagW
  | .fileBlockOffset => Config.offsetW
  | .startingBlockNumber => Config.startW
  | .blockCount => Config.countW

/-- The record bit of a field's least significant bit (30_encoding.md R60). -/
def Field.lo : Field → Nat
  | .flag => 127
  | .fileBlockOffset => 73
  | .startingBlockNumber => 21
  | .blockCount => 0

/-- The record bit of a field's most significant bit (30_encoding.md R60). -/
def Field.hi : Field → Nat
  | .flag => 127
  | .fileBlockOffset => 126
  | .startingBlockNumber => 72
  | .blockCount => 20

/-- The value of a field: its slice of the record, most significant bit first (20_memory.md R43). -/
def Field.value (f : Field) (r : Record) : BitVec f.width := r.extractLsb' f.lo f.width

/-- The logical view of a record, computed on demand and never stored (10_state.md R25). -/
structure ExtentFields where
  flag : ExtentFlag
  fileBlockOffset : BitVec 54
  startingBlockNumber : BitVec 52
  blockCount : BitVec 21
  deriving DecidableEq, Repr

/-- The four derived views of a record (10_state.md R25; 30_encoding.md R60). -/
def extentFields (r : Record) : ExtentFields :=
  { flag := ExtentFlag.ofBit (Field.value .flag r)
    fileBlockOffset := Field.value .fileBlockOffset r
    startingBlockNumber := Field.value .startingBlockNumber r
    blockCount := Field.value .blockCount r }

/-- The right-hand side of the reconstruction law (42_extent_unpacker.md R145), on the result bus:
`(f << 127) | (o << 73) | (s << 21) | c`. -/
def reconstruct (f o s c : Bus) : Record := (f <<< 127) ||| (o <<< 73) ||| (s <<< 21) ||| c

end Sys2Proof.Machine
end

