-- ==== Sys2Proof/Machine/Respond.lean ====
section
/-!
DEFINITION. The block as a function from one request to its verdict, with no state at all: "The response
to a request therefore depends only on that request's command and operands" (00_scope.md R3). The step
function is stated to agree with it in the obligations.
-/

namespace Sys2Proof.Machine

/-- The response of a typed request (10_state.md R27); none for a field that is not legal, to which no
rule gives a value (41_bitfield_decoder.md R121). -/
def Call.response : Call → Option Response
  | .recFromBytes bytes => some (recFromBytesResponse bytes)
  | .recToBytes a => some (recToBytesResponse a)
  | .recByte a idx => some (recByteResponse a idx)
  | .recEq a b => some (recEqResponse a b)
  | .getFlag a => some (getFlagResponse a)
  | .getFileBoffset a => some (getFileBoffsetResponse a)
  | .getFsbIndex a => some (getFsbIndexResponse a)
  | .getFsbCount a => some (getFsbCountResponse a)
  | .readBits a b n => if fieldLegal b n then some (readBitsResponse a b n) else none

/-- The verdict of a request: a refusal with its reason, or a response (60_exceptions.md R173: decoding
comes first, and a request has at most one verdict). -/
def respond (q : Request) : Except IllegalReason Response :=
  match decode q.cmd with
  | .error r => .error r
  | .ok i =>
    match (callOf i q).response with
    | some r => .ok r
    | none => .error .fieldRange

end Sys2Proof.Machine
end

