-- ==== Sys2Proof/Safety.lean ====
section
/-!
DEFINITION. The terms the claims are stated in: what it is for a state to have answered a request and
nothing else, what each client has received and is still owed, and the invariant of a run.
-/

namespace Sys2Proof.Machine

/-- The next turn is no reset: if a request waits, this step serves it. -/
def State.noResetNext (s : State) : Prop := ∀ t, s.turns.head? = some t → ∃ c, t = .serve c

/-- No turn that stands in the state is a reset. -/
def State.noReset (s : State) : Prop := ∀ t ∈ s.turns, ∃ c, t = .serve c

/-- `t` is `s` after the request `p` has been answered with `r`, and NOTHING ELSE has changed: `p`, the
oldest waiting request of its client, has left the port, every other request still waits in its order,
one turn is used up, and the one new response is last and goes to the client of `p`. -/
def Answered (s : State) (p : Presented) (r : Response) (t : State) : Prop :=
  (∃ before after, s.pending = before ++ p :: after ∧ (∀ x ∈ before, x.client ≠ p.client) ∧
    t.pending = before ++ after) ∧
  t.turns = s.turns.tail ∧ t.delivered = s.delivered ++ [⟨p.client, r⟩]

/-- The responses a client has received, oldest first. -/
def receivedBy (client : Nat) (ds : List Delivered) : List Response :=
  (ds.filter fun d => d.client == client).map Delivered.response

/-- The verdicts that a client's requests, each run alone, would get, in the order it presents them
(20_memory.md R50). -/
def verdictsFor (client : Nat) (ps : List Presented) : List (Except IllegalReason Response) :=
  (ps.filter fun p => p.client == client).map fun p => respond p.request

/-- The account of a client: what it has received, followed by the verdicts its waiting requests would get
if each ran alone. -/
def accountOf (client : Nat) (s : State) : List (Except IllegalReason Response) :=
  (receivedBy client s.delivered).map Except.ok ++ verdictsFor client s.pending

/-- The invariant of a run whose clients present the requests `ps`: every client's account is a
sublist, in order, of the verdicts its requests would get if each ran alone (20_memory.md R50;
70_reset_and_hazards.md R200, R205). -/
def RunInv (ps : List Presented) (s : State) : Prop :=
  ∀ client, (accountOf client s).Sublist (verdictsFor client ps)

/-- The natural width of an operation's result (20_memory.md R47; 42_extent_unpacker.md R148). -/
def resultWidth : Instr → Nat
  | .recFromBytes => 128
  | .recToBytes => 128
  | .recByte _ => 8
  | .recEq => 1
  | .getFlag => 1
  | .getFileBoffset => 54
  | .getFsbIndex => 52
  | .getFsbCount => 21
  | .readBits _ n => n.toNat

/-- A run is safe when no step of it faults (60_exceptions.md R176). -/
def SafeRun (k : Nat) (s : State) : Prop := ∀ f : Fault, Host.Core.run Sys2Proof.core k s ≠ .fault f

end Sys2Proof.Machine
end

