-- ==== Sys2Proof/Certificates/Slice0/Obligations.lean ====
section
/-!
DEFINITION. The statements for the provers, each after a rule of the spec. `log n` is
notes/assumptions/n.md. The block has no registers, flags or memory (10_state.md R20 to R29), so the
frame of every operation is one statement about the ports: `FrameOfEveryOperation`.
-/

open Sys2Proof Sys2Proof.Machine

/-! ### Encoding -/

/-- Decoding the encoded word of any well-formed command gives the command back, with every operand at
every value (30_encoding.md R66, R73, R74). -/
def Obligations.DecodeOfEncodeIsTheCommand : Prop :=
  ∀ i : Instr, i.wf = true → decode (encode i) = .ok i

/-- A word that decodes is the encoded word of the command it decodes to, which is well formed: no bit of
the word is ignored, and one word spells one request (30_encoding.md R68, R70; 92_eei_decisions.md D23). -/
def Obligations.EncodeOfDecodeIsTheWord : Prop :=
  ∀ (w : CmdWord) (i : Instr), decode w = .ok i → encode i = w ∧ i.wf = true

/-- The verdict of every 32-bit word, its fields taken by division (30_encoding.md R70, R73): the first
check that applies gives the reason, and a word that passes all of them is the command its fields spell. -/
def Obligations.VerdictOfEveryCommandWord : Prop :=
  ∀ w : CmdWord,
    let op := w.toNat % 16
    let idx := w.toNat / 2 ^ 4 % 16
    let b := w.toNat / 2 ^ 8 % 128
    let rsv1 := w.toNat / 2 ^ 15 % 2
    let n := w.toNat / 2 ^ 16 % 128
    let rsv2 := w.toNat / 2 ^ 23
    if 9 ≤ op then decode w = .error .reservedOp
    else if rsv1 ≠ 0 ∨ rsv2 ≠ 0 then decode w = .error .reservedBits
    else if op ≠ 2 ∧ idx ≠ 0 then decode w = .error .reservedBits
    else if op ≠ 8 ∧ (b ≠ 0 ∨ n ≠ 0) then decode w = .error .reservedBits
    else if op = 8 ∧ (64 < n ∨ 128 < b + n) then decode w = .error .fieldRange
    else ∃ i, decode w = .ok i ∧ i.op.toNat = op ∧ (∀ k, i = .recByte k → k.toNat = idx) ∧
      (∀ b' n', i = .readBits b' n' → b'.toNat = b ∧ n'.toNat = n)

/-- The decoder and the opcode table agree: a decoded word belongs to its command's row, and a word of a
row decodes to a command of that row, but for READ_BITS words out of range (opcode_table.json, its masks,
matches and constraint). -/
def Obligations.DecodeAgreesWithOpcodeTable : Prop :=
  ∀ (w : CmdWord) (i : Instr),
    (decode w = .ok i → (tableRow i).matches w = true) ∧
    ((tableRow i).matches w = true →
      (∃ j, decode w = .ok j ∧ tableRow j = tableRow i) ∨
      (i.op = 8 ∧ decode w = .error .fieldRange))

/-- The command words of the assembler's forms (30_encoding.md R74, column "command word"). -/
def Obligations.CommandWordOfEveryForm : Prop :=
  encode .recFromBytes = 0x00000000 ∧ encode .recToBytes = 0x00000001 ∧
  (∀ idx, (encode (.recByte idx)).toNat = idx.toNat * 16 + 2) ∧
  encode .recEq = 0x00000003 ∧ encode .getFlag = 0x00000004 ∧ encode .getFileBoffset = 0x00000005 ∧
  encode .getFsbIndex = 0x00000006 ∧ encode .getFsbCount = 0x00000007 ∧
  (∀ b n, (encode (.readBits b n)).toNat = n.toNat * 65536 + b.toNat * 256 + 8)

/-- Words written out from the spec decode to what 95_test_vectors.md section 2.7 says. A sanity
statement. -/
def Obligations.WrittenOutWordsDecode : Prop :=
  decode 0b00000000000000000000000000000000#32 = .ok .recFromBytes ∧
  decode 0b00000000000000000000000011110010#32 = .ok (.recByte 15) ∧
  decode 0b00000000000000000000000000000110#32 = .ok .getFsbIndex ∧
  decode 0b00000000001101100000000100001000#32 = .ok (.readBits 1 54) ∧
  decode 0b00000000000000000000000000001001#32 = .error .reservedOp ∧
  decode 0b00000000100000000000000000000100#32 = .error .reservedBits ∧
  decode 0b00000000000100000111100000001000#32 = .error .fieldRange

/-! ### The record format -/

/-- The layout table (30_encoding.md R60) and its partition (R62): widths, bit ranges and positions from
the most significant bit; every one of the 128 record bits lies in exactly one field. -/
def Obligations.FieldsPartitionTheRecord : Prop :=
  (Field.flag.lo = 127 ∧ Field.flag.hi = 127 ∧ Field.flag.width = 1) ∧
  (Field.fileBlockOffset.lo = 73 ∧ Field.fileBlockOffset.hi = 126 ∧ Field.fileBlockOffset.width = 54) ∧
  (Field.startingBlockNumber.lo = 21 ∧ Field.startingBlockNumber.hi = 72 ∧
    Field.startingBlockNumber.width = 52) ∧
  (Field.blockCount.lo = 0 ∧ Field.blockCount.hi = 20 ∧ Field.blockCount.width = 21) ∧
  Field.flag.width + Field.fileBlockOffset.width + Field.startingBlockNumber.width +
    Field.blockCount.width = 128 ∧
  (∀ i < 128, ∃ f : Field, f.lo ≤ i ∧ i ≤ f.hi ∧ ∀ g : Field, g.lo ≤ i → i ≤ g.hi → g = f)

/-- Byte order and bit order (20_memory.md R42): the bit of weight `2^j` of byte k is record bit
`120 - 8k + j`; byte 0 is the most significant byte and its bit 7 is bit 127. -/
def Obligations.RecordIsBigEndian : Prop :=
  (∀ (r : Record) (k : BitVec 4) (j : Nat), j < 8 →
    (byteAt r k).getLsbD j = r.getLsbD (120 - 8 * k.toNat + j)) ∧
  (∀ r : Record, (byteAt r 0).toNat = r.toNat / 2 ^ 120 ∧ (byteAt r 0).getLsbD 7 = r.getLsbD 127)

/-- The per-byte table (30_encoding.md R61): each byte of a record as the bits of its fields. -/
def Obligations.PerByteLayoutOfARecord : Prop :=
  ∀ r : Record,
    let F : BitVec 1 := Field.value .flag r
    let O : BitVec 54 := Field.value .fileBlockOffset r
    let S : BitVec 52 := Field.value .startingBlockNumber r
    let C : BitVec 21 := Field.value .blockCount r
    byteAt r 0 = F ++ O.extractLsb' 47 7 ∧
    byteAt r 1 = O.extractLsb' 39 8 ∧
    byteAt r 2 = O.extractLsb' 31 8 ∧
    byteAt r 3 = O.extractLsb' 23 8 ∧
    byteAt r 4 = O.extractLsb' 15 8 ∧
    byteAt r 5 = O.extractLsb' 7 8 ∧
    byteAt r 6 = O.extractLsb' 0 7 ++ S.extractLsb' 51 1 ∧
    byteAt r 7 = S.extractLsb' 43 8 ∧
    byteAt r 8 = S.extractLsb' 35 8 ∧
    byteAt r 9 = S.extractLsb' 27 8 ∧
    byteAt r 10 = S.extractLsb' 19 8 ∧
    byteAt r 11 = S.extractLsb' 11 8 ∧
    byteAt r 12 = S.extractLsb' 3 8 ∧
    byteAt r 13 = S.extractLsb' 0 3 ++ C.extractLsb' 16 5 ∧
    byteAt r 14 = C.extractLsb' 8 8 ∧
    byteAt r 15 = C.extractLsb' 0 8

/-! ### RawRecord operations -/

/-- REC_FROM_BYTES (40_raw_record.md R100): with 16 bytes it answers the record whose byte k is element
k, and with any other number of bytes InvalidLength. -/
def Obligations.RecFromBytesBuildsTheRecord : Prop :=
  decode 0x00000000 = .ok .recFromBytes ∧
  ∀ (s : State) (p : Presented), s.inService = some p →
    (p.request.len = 16 → ∃ rec : Record,
      exec .recFromBytes s = .next (s.deliver p.client (.ok rec)) ∧
      ∀ k : BitVec 4, p.request.bytes[k.toNat]? = some (byteAt rec k)) ∧
    (p.request.len ≠ 16 →
      exec .recFromBytes s = .next (s.deliver p.client (.err .invalidLength)))

/-- InvalidLength (60_exceptions.md R170): REC_FROM_BYTES alone raises it, exactly when the length is not
16; its status is 1 and it carries no result. -/
def Obligations.InvalidLengthExactlyOnOtherLengths : Prop :=
  ∀ (i : Instr) (s : State) (p : Presented) (r : Response), s.inService = some p →
    exec i s = .next (s.deliver p.client r) →
    (r = .err .invalidLength ↔ i = .recFromBytes ∧ p.request.len ≠ 16) ∧
    (r.status = 1 ↔ r = .err .invalidLength) ∧
    (r.result? = none ↔ r = .err .invalidLength)

/-- REC_TO_BYTES (40_raw_record.md R102): the record's bytes, in order, on the result bus. -/
def Obligations.RecToBytesReturnsTheBytes : Prop :=
  decode 0x00000001 = .ok .recToBytes ∧
  ∀ (s : State) (p : Presented), s.inService = some p → ∃ v : Bus,
    exec .recToBytes s = .next (s.deliver p.client (.ok v)) ∧
    v = p.request.recA ∧
    ∀ k : BitVec 4, (recordBytes p.request.recA)[k.toNat]? = some (byteAt v k)

/-- REC_BYTE (40_raw_record.md R103): byte k, the bits `127-8k` down to `120-8k`, zero-extended; and an
index of 16 or more, which only the assembler's unbounded integer can name, makes no request. -/
def Obligations.RecByteReturnsTheByte : Prop :=
  (∀ k : BitVec 4, decode ((k.setWidth 32 <<< 4) ||| 0x2) = .ok (.recByte k)) ∧
  (∀ (k : BitVec 4) (s : State) (p : Presented), s.inService = some p → ∃ v : Bus,
    exec (.recByte k) s = .next (s.deliver p.client (.ok v)) ∧
    v.toNat = p.request.recA.toNat / 2 ^ (120 - 8 * k.toNat) % 256) ∧
  (∀ (vars : List HostVar) (a : RecordRef) (idx : Nat), 16 ≤ idx →
    (AsmOp.recByte a idx).assemble vars = none)

/-- REC_EQ (40_raw_record.md R104): 1 exactly when all 16 bytes agree, which is when the records are equal
as 128-bit integers, and 0 otherwise. -/
def Obligations.RecEqComparesBytes : Prop :=
  decode 0x00000003 = .ok .recEq ∧
  (∀ a b : Record, (∀ k : BitVec 4, byteAt a k = byteAt b k) ↔ a = b) ∧
  ∀ (s : State) (p : Presented), s.inService = some p →
    (p.request.recA = p.request.recB → exec .recEq s = .next (s.deliver p.client (.ok 1))) ∧
    (p.request.recA ≠ p.request.recB → exec .recEq s = .next (s.deliver p.client (.ok 0)))

/-- Round trip (40_raw_record.md R105), both ways. -/
def Obligations.RecordsRoundTripThroughBytes : Prop :=
  (∀ bs : List Byte, bs.length = 16 → ∃ r : Record,
    recFromBytesResponse bs = .ok r ∧ recToBytesResponse r = .ok r ∧ recordBytes r = bs) ∧
  (∀ r : Record, recFromBytesResponse (recordBytes r) = .ok r)

/-! ### The bit-range reader -/

/-- READ_BITS (41_bitfield_decoder.md R120): on a legal field the N bits that start at position B,
zero-extended, which is 0 when N = 0; and its command word. -/
def Obligations.ReadBitsReturnsTheSlice : Prop :=
  ∀ b n : BitVec 7, n.toNat ≤ 64 → b.toNat + n.toNat ≤ 128 →
    decode ((n.setWidth 32 <<< 16) ||| (b.setWidth 32 <<< 8) ||| 0x8) = .ok (.readBits b n) ∧
    ∀ (s : State) (p : Presented), s.inService = some p → ∃ v : Bus,
      exec (.readBits b n) s = .next (s.deliver p.client (.ok v)) ∧
      v.toNat = p.request.recA.toNat / 2 ^ (128 - b.toNat - n.toNat) % 2 ^ n.toNat

/-- Legal fields (41_bitfield_decoder.md R121): a READ_BITS word decodes exactly when `N <= 64` and
`B + N <= 128`, and its value then fits in 64 bits; every other (B, N) is refused at decode. R121 gives
an illegal field no value; that the meaning faults on one is the model's (log 9, after 60_exceptions.md
R176). -/
def Obligations.OnlyLegalFieldsAreRead : Prop :=
  ∀ b n : BitVec 7,
    (n.toNat ≤ 64 ∧ b.toNat + n.toNat ≤ 128 →
      decode (encode (.readBits b n)) = .ok (.readBits b n) ∧
      ∀ (s : State) (p : Presented), s.inService = some p → ∃ v : Bus,
        exec (.readBits b n) s = .next (s.deliver p.client (.ok v)) ∧ v.toNat < 2 ^ 64) ∧
    (¬ (n.toNat ≤ 64 ∧ b.toNat + n.toNat ≤ 128) →
      decode (encode (.readBits b n)) = .error .fieldRange ∧
      ∀ s : State, exec (.readBits b n) s = .fault .illegalField)

/-- The corner cases of READ_BITS (41_bitfield_decoder.md R124), clause by clause. -/
def Obligations.ReadBitsCornerCases : Prop :=
  ∀ (s : State) (p : Presented), s.inService = some p →
    let a := p.request.recA
    (∀ b : BitVec 7, exec (.readBits b 0) s = .next (s.deliver p.client (.ok 0))) ∧
    (∀ b : BitVec 7, exec (.readBits b 1) s =
      .next (s.deliver p.client (.ok ((BitVec.ofBool (a.getLsbD (127 - b.toNat))).setWidth 128)))) ∧
    (∀ b : BitVec 7, (Instr.readBits b 64).wf = true ↔ b.toNat ≤ 64) ∧
    exec (.readBits 0 64) s = .next (s.deliver p.client (.ok (BitVec.ofNat 128 (a.toNat / 2 ^ 64)))) ∧
    exec (.readBits 64 64) s = .next (s.deliver p.client (.ok (BitVec.ofNat 128 (a.toNat % 2 ^ 64)))) ∧
    (∀ b n : BitVec 7, 1 ≤ n.toNat → n.toNat ≤ 64 → b.toNat + n.toNat = 128 → ∃ v : Bus,
      exec (.readBits b n) s = .next (s.deliver p.client (.ok v)) ∧ v.getLsbD 0 = a.getLsbD 0) ∧
    decode (encode (.readBits 127 2)) = .error .fieldRange ∧
    (∀ b n : BitVec 7, 1 ≤ n.toNat → n.toNat ≤ 64 →
      (b.toNat + n.toNat - 1) / 8 - b.toNat / 8 + 1 ≤ 9) ∧
    (∀ (b n : BitVec 7) (v : Bus), exec (.readBits b n) s = .next (s.deliver p.client (.ok v)) →
      v.toNat < 2 ^ n.toNat)

/-- The four accessors are READ_BITS with fixed constants (41_bitfield_decoder.md R123), whatever stands
on the ports; the constants are the command words of its table and the fields of 30_encoding.md R60. -/
def Obligations.AccessorsAreReadBitsInstances : Prop :=
  (∀ s : State, exec .getFlag s = exec (.readBits 0 1) s) ∧
  (∀ s : State, exec .getFileBoffset s = exec (.readBits 1 54) s) ∧
  (∀ s : State, exec .getFsbIndex s = exec (.readBits 55 52) s) ∧
  (∀ s : State, exec .getFsbCount s = exec (.readBits 107 21) s) ∧
  decode 0x00010008 = .ok (.readBits 0 1) ∧ decode 0x00360108 = .ok (.readBits 1 54) ∧
  decode 0x00343708 = .ok (.readBits 55 52) ∧ decode 0x00156B08 = .ok (.readBits 107 21)

/-- The shift-and-accumulate algorithm on unbounded integers reads the slice, for every record and every
legal field of at least one bit; before its final shift the accumulator holds at most `N + t <= 71` bits,
t being the bits of the last byte below the field (41_bitfield_decoder.md R122). -/
def Obligations.ShiftAndAccumulateReadsTheSlice : Prop :=
  ∀ (a : Record) (b n : BitVec 7), 1 ≤ n.toNat → n.toNat ≤ 64 → b.toNat + n.toNat ≤ 128 →
    readBitsWhole a b.toNat n.toNat = (readBitsValue a b n).toNat ∧
    (let t := 8 * ((b.toNat + n.toNat - 1) / 8 + 1) - (b.toNat + n.toNat)
     accumulateWhole a b.toNat n.toNat < 2 ^ (n.toNat + t) ∧ n.toNat + t ≤ 71)

/-- The same algorithm on a 64-bit accumulator, with the last byte shifted in only in part, reads the slice
too (41_bitfield_decoder.md R122, its closing remark on 64-bit implementations). -/
def Obligations.SixtyFourBitAccumulateReadsTheSlice : Prop :=
  ∀ (a : Record) (b n : BitVec 7), 1 ≤ n.toNat → n.toNat ≤ 64 → b.toNat + n.toNat ≤ 128 →
    (readBits64 a b.toNat n.toNat).setWidth 128 = readBitsValue a b n

/-! ### The extent record accessors -/

/-- GET_FLAG (42_extent_unpacker.md R140): bit 127, 1 for Unwritten and 0 for Normal. -/
def Obligations.GetFlagReturnsBit127 : Prop :=
  decode 0x00000004 = .ok .getFlag ∧
  ∀ (s : State) (p : Presented), s.inService = some p →
    (p.request.recA.getLsbD 127 = true → exec .getFlag s = .next (s.deliver p.client (.ok 1))) ∧
    (p.request.recA.getLsbD 127 = false → exec .getFlag s = .next (s.deliver p.client (.ok 0)))

/-- GET_FILE_BOFFSET (42_extent_unpacker.md R141): the algorithm's result is `rec[126:73]`. -/
def Obligations.GetFileBoffsetReturnsBits126To73 : Prop :=
  decode 0x00000005 = .ok .getFileBoffset ∧
  ∀ (s : State) (p : Presented), s.inService = some p → ∃ v : Bus,
    exec .getFileBoffset s = .next (s.deliver p.client (.ok v)) ∧
    v.toNat = p.request.recA.toNat / 2 ^ 73 % 2 ^ 54

/-- GET_FSB_INDEX (42_extent_unpacker.md R142): the algorithm's result is `rec[72:21]`. -/
def Obligations.GetFsbIndexReturnsBits72To21 : Prop :=
  decode 0x00000006 = .ok .getFsbIndex ∧
  ∀ (s : State) (p : Presented), s.inService = some p → ∃ v : Bus,
    exec .getFsbIndex s = .next (s.deliver p.client (.ok v)) ∧
    v.toNat = p.request.recA.toNat / 2 ^ 21 % 2 ^ 52

/-- GET_FSB_COUNT (42_extent_unpacker.md R143): the algorithm's result is `rec[20:0]`. -/
def Obligations.GetFsbCountReturnsBits20To0 : Prop :=
  decode 0x00000007 = .ok .getFsbCount ∧
  ∀ (s : State) (p : Presented), s.inService = some p → ∃ v : Bus,
    exec .getFsbCount s = .next (s.deliver p.client (.ok v)) ∧
    v.toNat = p.request.recA.toNat % 2 ^ 21

/-- Reconstruction (42_extent_unpacker.md R145): a record is the OR of its four shifted fields, which have
no set bit in common; and every choice of field values makes a record that decodes back to it. -/
def Obligations.FieldsReconstructTheRecord : Prop :=
  (∀ r : Record, ∃ f o st c : Bus,
    getFlagResponse r = .ok f ∧ getFileBoffsetResponse r = .ok o ∧ getFsbIndexResponse r = .ok st ∧
    getFsbCountResponse r = .ok c ∧ r = reconstruct f o st c ∧
    (f <<< 127) &&& (o <<< 73) = 0 ∧ (f <<< 127) &&& (st <<< 21) = 0 ∧ (f <<< 127) &&& c = 0 ∧
    (o <<< 73) &&& (st <<< 21) = 0 ∧ (o <<< 73) &&& c = 0 ∧ (st <<< 21) &&& c = 0) ∧
  (∀ f o st c : Bus, f.toNat < 2 → o.toNat < 2 ^ 54 → st.toNat < 2 ^ 52 → c.toNat < 2 ^ 21 →
    getFlagResponse (reconstruct f o st c) = .ok f ∧
    getFileBoffsetResponse (reconstruct f o st c) = .ok o ∧
    getFsbIndexResponse (reconstruct f o st c) = .ok st ∧
    getFsbCountResponse (reconstruct f o st c) = .ok c)

/-- Independence (42_extent_unpacker.md R146): two records that agree on the bits of a field give the same
result of its accessor, whatever their other bits. -/
def Obligations.AccessorsReadOnlyTheirField : Prop :=
  ∀ a a' : Record,
    let agree (f : Field) : Prop := ∀ i, f.lo ≤ i → i ≤ f.hi → a.getLsbD i = a'.getLsbD i
    (agree .flag → getFlagResponse a = getFlagResponse a') ∧
    (agree .fileBlockOffset → getFileBoffsetResponse a = getFileBoffsetResponse a') ∧
    (agree .startingBlockNumber → getFsbIndexResponse a = getFsbIndexResponse a') ∧
    (agree .blockCount → getFsbCountResponse a = getFsbCountResponse a')

/-- The accessors are total on every record, and what they answer is the record's derived view
(10_state.md R25; 42_extent_unpacker.md R144; 30_encoding.md R64 for the flag's two values). -/
def Obligations.AccessorsAnswerTheExtentFields : Prop :=
  ∀ r : Record,
    let v := extentFields r
    getFlagResponse r = .ok (v.flag.toBit.setWidth 128) ∧
    (v.flag = .unwritten ↔ r.getLsbD 127 = true) ∧ (v.flag = .normal ↔ r.getLsbD 127 = false) ∧
    getFileBoffsetResponse r = .ok (v.fileBlockOffset.setWidth 128) ∧
    getFsbIndexResponse r = .ok (v.startingBlockNumber.setWidth 128) ∧
    getFsbCountResponse r = .ok (v.blockCount.setWidth 128)

/-! ### Every operation -/

/-- Every well-formed command completes on every request: it answers a next state that delivers a response
to the request's client (70_reset_and_hazards.md R203: "every request completes"). -/
def Obligations.EveryOperationCompletes : Prop :=
  ∀ (i : Instr) (s : State) (p : Presented), i.wf = true → s.inService = some p →
    ∃ r, exec i s = .next (s.deliver p.client r)

/-- The frame of every operation: it answers the request in service and changes nothing else. Every other
request still waits, unchanged and in order, and every response given before stands unchanged. The block
has no registers, flags, status registers or memory for it to change (10_state.md R20 to R23; 20_memory.md
R47; 40_raw_record.md R106). That the request answered is the oldest of its client and that one turn is used up
is the model's choice (log 1, log 5). -/
def Obligations.FrameOfEveryOperation : Prop :=
  ∀ (i : Instr) (s t : State), exec i s = .next t →
    ∃ (p : Presented) (r : Response), s.inService = some p ∧ Answered s p r t

/-- Result widths (30_encoding.md R76; 42_extent_unpacker.md R148): every bit of the result above the
operation's natural width is 0. -/
def Obligations.ResultsFitTheirNaturalWidth : Prop :=
  ∀ (i : Instr) (s : State) (p : Presented) (v : Bus), s.inService = some p →
    exec i s = .next (s.deliver p.client (.ok v)) → v.toNat < 2 ^ resultWidth i

/-- A response does not depend on the operand buses its operation does not use (10_state.md R27;
30_encoding.md R68; 92_eei_decisions.md D23). -/
def Obligations.UnusedOperandsAreIgnored : Prop :=
  ∀ (w : CmdWord) (a b a' b' : Record) (bs bs' : List Byte),
    (decode w = .ok .recFromBytes → respond ⟨w, a, b, bs⟩ = respond ⟨w, a', b', bs⟩) ∧
    (decode w = .ok .recEq → respond ⟨w, a, b, bs⟩ = respond ⟨w, a, b, bs'⟩) ∧
    (decode w ≠ .ok .recFromBytes → decode w ≠ .ok .recEq →
      respond ⟨w, a, b, bs⟩ = respond ⟨w, a, b', bs'⟩)

/-! ### One step -/

/-- When the command word in service decodes to a command, the step is that command's meaning, and the
step adds nothing around it. -/
def Obligations.StepRunsTheDecodedCommand : Prop :=
  ∀ (s : State) (p : Presented) (i : Instr), s.noResetNext → s.inService = some p →
    decode p.request.cmd = .ok i → step s = exec i s

/-- The response to a request depends only on that request's command and operands (00_scope.md R3): the
step agrees with the function `respond`, which sees nothing but the request. That the step ends refused where
`respond` refuses is the model's reading of 60_exceptions.md R172, R173 and 70_reset_and_hazards.md R205
(log 8). -/
def Obligations.StepAnswersAsTheRequestAlone : Prop :=
  ∀ (s : State) (p : Presented), s.noResetNext → s.inService = some p →
    (∀ r, respond p.request = .ok r → step s = .next (s.deliver p.client r)) ∧
    (∀ e, respond p.request = .error e → step s = .refused (.illegalCommand e))

/-- One verdict (60_exceptions.md R171, R173): a refused word is refused whatever its operands; a legal command
other than REC_FROM_BYTES gives no error; REC_FROM_BYTES gives OK or InvalidLength. That the step ends refused
is the model's reading of R172 and R173 (log 8). -/
def Obligations.EveryRequestHasOneVerdict : Prop :=
  ∀ (s : State) (p : Presented), s.noResetNext → s.inService = some p →
    (∀ e, decode p.request.cmd = .error e → step s = .refused (.illegalCommand e)) ∧
    (∀ i, decode p.request.cmd = .ok i → i ≠ .recFromBytes →
      ∃ v, step s = .next (s.deliver p.client (.ok v))) ∧
    (decode p.request.cmd = .ok .recFromBytes →
      (∃ v, step s = .next (s.deliver p.client (.ok v))) ∨
      step s = .next (s.deliver p.client (.err .invalidLength)))

/-- Internal invariant violations (60_exceptions.md R176): a meaning that is handed one faults and returns
no value, and no step reaches one. That a meaning called with no request in service, or with a field that is
not legal, is such a case is the model's reading (log 9). -/
def Obligations.InvariantViolationsFaultAndAreUnreachable : Prop :=
  (∀ (s : State) (f : Fault), step s ≠ .fault f) ∧
  (∀ (i : Instr) (s : State), s.inService = none → ∃ f, exec i s = .fault f) ∧
  (∀ (b n : BitVec 7) (s : State), (Instr.readBits b n).wf = false →
    exec (.readBits b n) s = .fault .illegalField)

/-- No run of any length faults, from any state (60_exceptions.md R176). -/
def Obligations.EveryRunIsSafe : Prop := ∀ (k : Nat) (s : State), SafeRun k s

/-- What was answered before never affects a step (10_state.md R26; 60_exceptions.md R175): the step with
any other history of responses does the same, and appends the same. -/
def Obligations.HistoryNeverAffectsAStep : Prop :=
  ∀ (s : State) (ds : List Delivered),
    (∀ t, step s = .next t → ∃ new, t.delivered = s.delivered ++ new ∧
      step { s with delivered := ds } = .next { t with delivered := ds ++ new }) ∧
    (∀ r, step s = .refused r → step { s with delivered := ds } = .refused r)

/-- With no request waiting, a step changes nothing but using up a turn. THE MODEL'S CHOICE (log 4), after
60_exceptions.md R177: "Nothing reaches the block except requests". -/
def Obligations.IdleStepChangesNothing : Prop :=
  ∀ s : State, s.noResetNext → s.pending = [] →
    (∃ t, step s = .next t ∧ t.pending = [] ∧ t.delivered = s.delivered ∧ t.turns = s.turns.tail) ∧
    (s.turns = [] → step s = .next s)

/-- Which request a turn has in service: the oldest waiting request of the client it names, and the oldest of
all where it names none or that client has none. A `resetDuring c` turn takes the very request that `serve c`
would serve; a bare `reset` names no client. THE MODEL'S CHOICE (log 5, log 6) within 92_eei_decisions.md
D13. -/
def Obligations.TurnServesTheOldestRequestOfItsClient : Prop :=
  ∀ s : State,
    (∀ c, s.turns.head? = some (.serve c) ∨ s.turns.head? = some (.resetDuring c) →
      (∃ x ∈ s.pending, x.client = c) →
      ∃ before p after, s.inService = some p ∧ p.client = c ∧ s.pending = before ++ p :: after ∧
        ∀ x ∈ before, x.client ≠ c) ∧
    (∀ c, s.turns.head? = some (.serve c) ∨ s.turns.head? = some (.resetDuring c) →
      (∀ x ∈ s.pending, x.client ≠ c) → s.inService = s.pending.head?) ∧
    (s.turns = [] → s.inService = s.pending.head?)

/-! ### Reset -/

/-- After reset no request and no response exists (10_state.md R30). That no turn stands in the state is
the model's choice (log 11). -/
def Obligations.ResetLeavesNoRequestAndNoResponse : Prop :=
  State.reset.pending = [] ∧ State.reset.delivered = []

/-- Boot needs nothing (70_reset_and_hazards.md R201): the very first request after reset is answered as at
any other time, given only a command word that decodes and its operands. It holds of the reset state, whose list
of turns is empty by the model's choice (log 11), and as well with any turns that serve, whichever client they
name (log 5). -/
def Obligations.FirstRequestAfterResetIsAnswered : Prop :=
  ∀ (c : Nat) (q : Request) (ts : List Turn), (∀ t ∈ ts, ∃ d, t = .serve d) →
    (∀ r, respond q = .ok r → step ({ State.reset with turns := ts }.present c q) =
      .next { pending := [], turns := ts.tail, delivered := [⟨c, r⟩] }) ∧
    (∀ i, decode q.cmd = .ok i → ∃ r, respond q = .ok r)

/-- The arrival of reset (70_reset_and_hazards.md R200, with log 6 for how the model lets it arrive): with
nothing in progress it has no effect. A `resetDuring c` turn takes the oldest waiting request of client c, or
the oldest of all where c has none, without a response; every other request still waits, and every response
already given stands. Where no request waits it takes none. -/
def Obligations.ResetTakesOnlyTheRequestInProgress : Prop :=
  ∀ s : State,
    (s.turns.head? = some .reset → ∃ t, step s = .next t ∧ t.pending = s.pending ∧
      t.delivered = s.delivered ∧ t.turns = s.turns.tail) ∧
    (∀ c, s.turns.head? = some (.resetDuring c) → ∃ t, step s = .next t ∧
      t.delivered = s.delivered ∧ t.turns = s.turns.tail ∧
      (s.pending = [] → t.pending = []) ∧
      ((∃ x ∈ s.pending, x.client = c) → ∃ before p after, s.inService = some p ∧ p.client = c ∧
        s.pending = before ++ p :: after ∧ (∀ x ∈ before, x.client ≠ c) ∧ t.pending = before ++ after) ∧
      ((∀ x ∈ s.pending, x.client ≠ c) → t.pending = s.pending.tail))

/-! ### Runs -/

/-- The invariant of a run holds when the clients' requests stand on the port and nothing has been
answered, whatever the turns; and at reset, for no requests. -/
def Obligations.RunInvariantHoldsAtTheStart : Prop :=
  (∀ (ps : List Presented) (ts : List Turn),
    RunInv ps { pending := ps, turns := ts, delivered := [] }) ∧
  RunInv [] State.reset

/-- Every step keeps the invariant of a run, whatever the turns, and keeps the accounts of the clients
(20_memory.md R50; 70_reset_and_hazards.md R200, R205; the order within a client is log 5, the arrival of reset
log 6). A step that is no `resetDuring` turn leaves every client's account EXACTLY as it was: nothing is lost,
added or reordered. A `resetDuring` turn loses one verdict, that of the request in service, from its client's
account, and leaves every other client's account as it was. -/
def Obligations.EveryStepKeepsTheRunInvariant : Prop :=
  ∀ s t : State, step s = .next t →
    (∀ ps : List Presented, RunInv ps s → RunInv ps t) ∧
    ((∀ d, s.turns.head? ≠ some (.resetDuring d)) → ∀ c, accountOf c t = accountOf c s) ∧
    (∀ d, s.turns.head? = some (.resetDuring d) →
      (s.inService = none → ∀ c, accountOf c t = accountOf c s) ∧
      (∀ p, s.inService = some p →
        (∀ c, c ≠ p.client → accountOf c t = accountOf c s) ∧
        ∃ owed, accountOf p.client s =
            (receivedBy p.client s.delivered).map Except.ok ++ respond p.request :: owed ∧
          accountOf p.client t = (receivedBy p.client s.delivered).map Except.ok ++ owed))

/-- Requests of any number of clients, served in any order: when all of them spell operations and no reset
arrives, as many steps as there are requests answer them all, and each client has received exactly the
responses it would have received alone, in the order of its own requests (20_memory.md R50; 60_exceptions.md
R180; the order within a client is 70_reset_and_hazards.md R205 and log 5). -/
def Obligations.EveryClientReceivesItsOwnResponses : Prop :=
  ∀ s : State, s.noReset → (∀ p ∈ s.pending, ∃ r, respond p.request = .ok r) →
    ∃ t, Host.Core.run Sys2Proof.core s.pending.length s = .next t ∧ t.pending = [] ∧
      ∀ c, (receivedBy c t.delivered).map Except.ok =
        (receivedBy c s.delivered).map Except.ok ++ verdictsFor c s.pending

/-- The observation of one client's run is the list of its responses in request order
(70_reset_and_hazards.md R205). -/
def Obligations.ObservationIsTheResponsesInRequestOrder : Prop :=
  ∀ (c : Nat) (qs : List Request) (rs : List Response) (ts : List Turn),
    (∀ t ∈ ts, ∃ d, t = .serve d) → qs.map respond = rs.map Except.ok →
    Host.Core.run Sys2Proof.core qs.length
        { pending := qs.map (Presented.mk c), turns := ts, delivered := [] } =
      .next { pending := [], turns := ts.drop qs.length, delivered := rs.map (Delivered.mk c) }

/-- A run that contains a refused request ends refused, with the reason of a request of the run
(70_reset_and_hazards.md R205). -/
def Obligations.RunWithARefusedRequestEndsRefused : Prop :=
  ∀ s : State, s.noReset → (∃ p ∈ s.pending, ∃ e, respond p.request = .error e) →
    ∃ p ∈ s.pending, ∃ e, respond p.request = .error e ∧
      Host.Core.run Sys2Proof.core s.pending.length s = .refused (.illegalCommand e)

/-! ### The host's side -/

/-- A word placed by `withFetchWord` is the word that the very next step decodes and runs (log 11). -/
def Obligations.PlacedWordRunsNext : Prop :=
  ∀ (s : State) (w : Nat) (i : Instr), w < 2 ^ 32 → decode (BitVec.ofNat 32 w) = .ok i →
    step (s.withFetchWord 32 w) = exec i (s.withFetchWord 32 w) ∧
    ∃ p, (s.withFetchWord 32 w).inService = some p ∧ p.request.cmd = BitVec.ofNat 32 w

/-- A line of the assembler makes one request, and its host variable receives the response that the request
alone determines, whatever resets arrive: the host presents a request that reset took again (R200); a refused
word stops the host (30_encoding.md R74; 00_scope.md R16; 70_reset_and_hazards.md R200; log 15). Here no other
request waits. -/
def Obligations.AssemblerLineReceivesItsResponse : Prop :=
  ∀ (c : Nat) (line : AsmLine) (s : State) (vars : List HostVar) (q : Request), s.pending = [] →
    line.op.assemble vars = some q →
    (∀ r, respond q = .ok r → ∃ t,
      runLine c line s vars = .ok (t, ⟨line.name, line.op.yieldsRecord, r⟩ :: vars) ∧
      t.pending = [] ∧ t.delivered = s.delivered ++ [⟨c, r⟩]) ∧
    (∀ e, respond q = .error e → runLine c line s vars = .error (.refused (.illegalCommand e)))

/-- A line's variable receives the response to ITS OWN request and to no other, from every state, with any
requests of any clients waiting already and any turns, resets among them; and the line stops only where it is no
request or where its word, or that of a request that waited before it, spells no operation (30_encoding.md R74;
00_scope.md R16; 20_memory.md R50; 70_reset_and_hazards.md R200, R205). What the host does with a response and
while it waits is the model's choice (log 15). -/
def Obligations.AssemblerLineReceivesItsOwnResponse : Prop :=
  ∀ (c : Nat) (line : AsmLine) (s : State) (vars : List HostVar),
    (line.op.assemble vars = none ↔ runLine c line s vars = .error .notARequest) ∧
    (∀ t vars', runLine c line s vars = .ok (t, vars') →
      ∃ q r others, line.op.assemble vars = some q ∧ respond q = .ok r ∧
        vars' = ⟨line.name, line.op.yieldsRecord, r⟩ :: vars ∧
        t.delivered = s.delivered ++ others ++ [⟨c, r⟩] ∧ ∀ x ∈ t.pending, x.client ≠ c) ∧
    (∀ q r, line.op.assemble vars = some q → respond q = .ok r →
      (∀ p ∈ s.pending, ∃ r', respond p.request = .ok r') →
      ∃ t, runLine c line s vars = .ok (t, ⟨line.name, line.op.yieldsRecord, r⟩ :: vars)) ∧
    (∀ x, runLine c line s vars = .error (.refused x) → ∃ e, x = .illegalCommand e ∧
      ((∃ q, line.op.assemble vars = some q ∧ respond q = .error e) ∨
        ∃ p ∈ s.pending, respond p.request = .error e)) ∧
    (∀ f, runLine c line s vars ≠ .error (.fault f)) ∧
    runLine c line s vars ≠ .error .notAnswered
end

