-- ==== Sys2Proof/Laws/State.lean ====
section
/-! SUPPORT. What each update of the ports does to each field of State, so that no proof unfolds a record
update. -/

namespace Sys2Proof.Machine

@[simp] theorem State.reset_pending : State.reset.pending = [] := rfl
@[simp] theorem State.reset_turns : State.reset.turns = [] := rfl
@[simp] theorem State.reset_delivered : State.reset.delivered = [] := rfl

@[simp] theorem State.passTurn_pending (s : State) : s.passTurn.pending = s.pending := rfl
@[simp] theorem State.passTurn_turns (s : State) : s.passTurn.turns = s.turns.tail := rfl
@[simp] theorem State.passTurn_delivered (s : State) : s.passTurn.delivered = s.delivered := rfl

@[simp] theorem State.retire_pending (s : State) : s.retire.pending = s.pending.eraseIdx s.serviceIdx := rfl
@[simp] theorem State.retire_turns (s : State) : s.retire.turns = s.turns.tail := rfl
@[simp] theorem State.retire_delivered (s : State) : s.retire.delivered = s.delivered := rfl

@[simp] theorem State.deliver_pending (s : State) (c : Nat) (r : Response) :
    (s.deliver c r).pending = s.pending.eraseIdx s.serviceIdx := rfl
@[simp] theorem State.deliver_turns (s : State) (c : Nat) (r : Response) :
    (s.deliver c r).turns = s.turns.tail := rfl
@[simp] theorem State.deliver_delivered (s : State) (c : Nat) (r : Response) :
    (s.deliver c r).delivered = s.delivered ++ [⟨c, r⟩] := rfl

@[simp] theorem State.present_pending (s : State) (c : Nat) (q : Request) :
    (s.present c q).pending = s.pending ++ [⟨c, q⟩] := rfl
@[simp] theorem State.present_turns (s : State) (c : Nat) (q : Request) :
    (s.present c q).turns = s.turns := rfl
@[simp] theorem State.present_delivered (s : State) (c : Nat) (q : Request) :
    (s.present c q).delivered = s.delivered := rfl

end Sys2Proof.Machine
end

