-- ==== Sys2Proof/Laws/Ops.lean ====
section
/-! SUPPORT. One lemma per shared operation that says all it can do: the byte access of a record, the
choice of the request in service, and the answering of a request. -/

namespace Sys2Proof.Machine

/-! ### Bytes of a record -/

theorem getLsbD_byteAt (r : Record) (k : BitVec 4) (j : Nat) :
    (byteAt r k).getLsbD j = (decide (j < 8) && r.getLsbD (120 - 8 * k.toNat + j)) := by
  simp [byteAt]

theorem byteAt_toNat (r : Record) (k : BitVec 4) :
    (byteAt r k).toNat = r.toNat / 2 ^ (120 - 8 * k.toNat) % 256 := by
  simp [byteAt, Nat.shiftRight_eq_div_pow]

theorem mem_byteIndices (k : BitVec 4) : k ∈ byteIndices := by
  revert k; decide

theorem recordBytes_length (r : Record) : (recordBytes r).length = 16 := by
  simp [recordBytes, byteIndices]

theorem concatBytes_concat (bs : List Byte) (b : Byte) :
    concatBytes (bs ++ [b]) = (concatBytes bs <<< 8) ||| b.setWidth 128 := by
  simp [concatBytes]

/-- The bits of a built record: the last byte of the sequence is the least significant one. -/
theorem getLsbD_concatBytes (bs : List Byte) (i : Nat) (hi : i < 128) :
    (concatBytes bs).getLsbD i = ((bs.reverse[i / 8]?).getD 0).getLsbD (i % 8) := by
  induction bs using List.reverseRecOn generalizing i with
  | nil => simp [concatBytes]
  | append_singleton bs b ih =>
    rw [concatBytes_concat, BitVec.getLsbD_or, BitVec.getLsbD_shiftLeft, BitVec.getLsbD_setWidth,
      List.reverse_append]
    by_cases h : i < 8
    · simp [h, hi, Nat.div_eq_of_lt h, Nat.mod_eq_of_lt h]
    · have hdiv : i / 8 = (i - 8) / 8 + 1 := by omega
      have hb : b.getLsbD i = false := BitVec.getLsbD_of_ge b i (by omega)
      rw [ih (i - 8) (by omega), hdiv, show (i - 8) % 8 = i % 8 by omega]
      simp [h, hi, hb]

theorem fieldLegal_iff (b n : BitVec 7) :
    fieldLegal b n = true ↔ n.toNat ≤ 64 ∧ b.toNat + n.toNat ≤ 128 := by
  simp [fieldLegal]

/-! ### The request in service -/

/-- The request a turn picks is the oldest one of its client. -/
theorem pickIdx_split (client : Option Nat) (ps : List Presented) (p : Presented)
    (h : ps[pickIdx client ps]? = some p) :
    ∃ before after, ps = before ++ p :: after ∧ (∀ x ∈ before, x.client ≠ p.client) ∧
      ps.eraseIdx (pickIdx client ps) = before ++ after := by
  have oldest (h : ps[0]? = some p) : ∃ before after, ps = before ++ p :: after ∧
      (∀ x ∈ before, x.client ≠ p.client) ∧ ps.eraseIdx 0 = before ++ after := by
    cases ps with
    | nil => simp at h
    | cons q rest => simp at h; subst h; exact ⟨[], rest, by simp⟩
  unfold pickIdx at h ⊢
  cases client with
  | none => exact oldest h
  | some c =>
    cases hk : ps.findIdx? (fun p => p.client == c) with
    | none => simp only [hk] at h ⊢; exact oldest h
    | some k =>
      simp only [hk] at h ⊢
      obtain ⟨hlt, hc, hbefore⟩ := List.findIdx?_eq_some_iff_getElem.mp hk
      have hp : ps[k] = p := by simpa [List.getElem?_eq_getElem hlt] using h
      subst hp
      refine ⟨ps.take k, ps.drop (k + 1), ?_, ?_, List.eraseIdx_eq_take_drop_succ ps k⟩
      · simp
      · intro x hx hxc
        obtain ⟨j, hj, rfl⟩ := List.mem_take_iff_getElem.mp hx
        have := hbefore j (by omega)
        simp_all

theorem inService_split {s : State} {p : Presented} (h : s.inService = some p) :
    ∃ before after, s.pending = before ++ p :: after ∧ (∀ x ∈ before, x.client ≠ p.client) ∧
      s.pending.eraseIdx s.serviceIdx = before ++ after :=
  pickIdx_split s.turnClient s.pending p h

theorem pickIdx_lt (client : Option Nat) {ps : List Presented} (h : ps ≠ []) :
    pickIdx client ps < ps.length := by
  have hpos := List.length_pos_iff.mpr h
  unfold pickIdx
  cases client with
  | none => exact hpos
  | some c =>
    cases hk : ps.findIdx? (fun p => p.client == c) with
    | none => simpa [hk] using hpos
    | some k => simpa [hk] using (List.findIdx?_eq_some_iff_getElem.mp hk).1

/-- Some request is in service exactly when one waits. -/
theorem inService_eq_none_iff (s : State) : s.inService = none ↔ s.pending = [] := by
  constructor
  · intro h
    by_contra hne
    have := pickIdx_lt s.turnClient hne
    rw [State.inService, List.getElem?_eq_none_iff] at h
    unfold State.serviceIdx at h
    omega
  · intro h; simp [State.inService, h]

/-- A turn that names a client with a waiting request picks a request of that client. -/
theorem pickIdx_of_waiting {c : Nat} {ps : List Presented} (h : ∃ x ∈ ps, x.client = c) :
    ∃ p, ps[pickIdx (some c) ps]? = some p ∧ p.client = c := by
  unfold pickIdx
  cases hk : ps.findIdx? (fun p => p.client == c) with
  | none =>
    obtain ⟨x, hx, hc⟩ := h
    exact absurd hc (by simpa using List.findIdx?_eq_none_iff.mp hk x hx)
  | some k =>
    obtain ⟨hlt, hc, -⟩ := List.findIdx?_eq_some_iff_getElem.mp hk
    exact ⟨ps[k], by simp only [hk]; simp, by simpa using hc⟩

/-- A turn that names a client with no waiting request picks the oldest of all. -/
theorem pickIdx_of_not_waiting {c : Nat} {ps : List Presented} (h : ∀ x ∈ ps, x.client ≠ c) :
    pickIdx (some c) ps = 0 := by
  have hk : ps.findIdx? (fun p => p.client == c) = none := by simpa using h
  simp [pickIdx, hk]

theorem waiting_eq_zero_iff (s : State) (c : Nat) : s.waiting c = 0 ↔ ∀ x ∈ s.pending, x.client ≠ c := by
  simp [State.waiting, List.countP_eq_zero]

/-! ### Answering -/

theorem respondWith_of_inService {s : State} {p : Presented} (h : s.inService = some p)
    (meaning : Request → Response) :
    s.respondWith meaning = .next (s.deliver p.client (meaning p.request)) := by
  simp [State.respondWith, h]

theorem respondWith_of_none {s : State} (h : s.inService = none) (meaning : Request → Response) :
    s.respondWith meaning = .fault .noRequest := by
  simp [State.respondWith, h]

end Sys2Proof.Machine
end

