-- ==== Sys2Proof/Laws/PerInstr.lean ====
section
/-! SUPPORT. The family OpField: what the encoded word of a command holds outside its own fields, one
lemma per constructor. -/

namespace Sys2Proof.Laws.OpField

/-- The word of a command carries its operation code of 30_encoding.md R67 in bits 3..0, and both
reserved fields are 0 (30_encoding.md R66). -/
def Statement (i : Instr) : Prop :=
  cmdOp (encode i) = i.op ∧ cmdRsv1 (encode i) = 0 ∧ cmdRsv2 (encode i) = 0

theorem recFromBytes : Statement .recFromBytes := by unfold Statement; decide
theorem recToBytes : Statement .recToBytes := by unfold Statement; decide
theorem recByte (idx : BitVec 4) : Statement (.recByte idx) := by
  unfold Statement; revert idx; decide
theorem recEq : Statement .recEq := by unfold Statement; decide
theorem getFlag : Statement .getFlag := by unfold Statement; decide
theorem getFileBoffset : Statement .getFileBoffset := by unfold Statement; decide
theorem getFsbIndex : Statement .getFsbIndex := by unfold Statement; decide
theorem getFsbCount : Statement .getFsbCount := by unfold Statement; decide
theorem readBits (b n : BitVec 7) : Statement (.readBits b n) := by
  refine ⟨?_, ?_, ?_⟩ <;> apply BitVec.eq_of_getLsbD_eq <;> intro i hi <;>
    interval_cases i <;> simp [cmdOp, cmdRsv1, cmdRsv2, encode, Instr.op]

end Sys2Proof.Laws.OpField
end

