-- ==== Sys2Proof/Laws/Step.lean ====
section
/-! SUPPORT. What one meaning and one step can do, said once. -/

namespace Sys2Proof.Machine

/-- Every meaning in one form: the response of its typed request, delivered. -/
theorem exec_eq (i : Instr) (s : State) :
    exec i s = match (motive := Option Presented → Host.Outcome State Fault Refusal) s.inService with
      | some p => match (callOf i p.request).response with
        | some r => .next (s.deliver p.client r)
        | none => .fault .illegalField
      | none => match i with
        | .readBits b n => if fieldLegal b n then .fault .noRequest else .fault .illegalField
        | _ => .fault .noRequest := by
  cases h : s.inService with
  | none =>
    cases i <;>
      simp [exec, execRecFromBytes, execRecToBytes, execRecByte, execRecEq, execGetFlag,
        execGetFileBoffset, execGetFsbIndex, execGetFsbCount, execReadBits, respondWith_of_none h]
  | some p =>
    cases i <;>
      simp [exec, execRecFromBytes, execRecToBytes, execRecByte, execRecEq, execGetFlag,
        execGetFileBoffset, execGetFsbIndex, execGetFsbCount, execReadBits,
        respondWith_of_inService h, callOf, Call.response]
    split <;> simp

/-- What a meaning does when it answers a next state. -/
theorem exec_next_iff (i : Instr) (s t : State) :
    exec i s = .next t ↔ ∃ p r, s.inService = some p ∧ (callOf i p.request).response = some r ∧
      t = s.deliver p.client r := by
  rw [exec_eq]
  cases h : s.inService with
  | none => cases i <;> simp; split <;> simp
  | some p =>
    cases hr : (callOf i p.request).response with
    | none => simp [hr]
    | some r => simp [hr, eq_comm]

/-- A meaning answers the request in service with the response of its typed request. -/
theorem exec_of_response {i : Instr} {s : State} {p : Presented} {r : Response}
    (hs : s.inService = some p) (hr : (callOf i p.request).response = some r) :
    exec i s = .next (s.deliver p.client r) :=
  (exec_next_iff i s _).mpr ⟨p, r, hs, hr, rfl⟩

/-- What a step does when it answers a next state. -/
theorem step_cases {s t : State} (h : step s = .next t) :
    (s.turns.head? = some .reset ∧ t = s.passTurn) ∨
    (∃ c, s.turns.head? = some (.resetDuring c) ∧ t = s.retire) ∨
    (s.inService = none ∧ t = s.passTurn) ∨
    (∃ p i, s.inService = some p ∧ decode p.request.cmd = .ok i ∧ exec i s = .next t) := by
  unfold step at h
  split at h
  · next ht => cases h; exact .inl ⟨ht, rfl⟩
  · next c ht => cases h; exact .inr (.inl ⟨c, ht, rfl⟩)
  · split at h
    · next hs => cases h; exact .inr (.inr (.inl ⟨hs, rfl⟩))
    · next p hs =>
      split at h
      · cases h
      · next i hd => exact .inr (.inr (.inr ⟨p, i, hs, hd, h⟩))

/-- What a step does when it is refused. -/
theorem step_refused_cases {s : State} {x : Refusal} (h : step s = .refused x) :
    ∃ p e, s.inService = some p ∧ decode p.request.cmd = .error e ∧ x = .illegalCommand e := by
  unfold step at h
  split at h
  · cases h
  · cases h
  · split at h
    · cases h
    · next p hs =>
      split at h
      · next e hd => cases h; exact ⟨p, e, hs, hd, rfl⟩
      · rw [exec_eq, hs] at h
        simp only at h
        split at h <;> cases h

/-- A step uses up a turn, or a request where no turn stands, so that waiting for an answer ends. -/
theorem step_measure {s t : State} (h : step s = .next t) (hp : s.pending ≠ []) :
    t.turns.length + t.pending.length < s.turns.length + s.pending.length := by
  have htail : s.turns.tail.length ≤ s.turns.length := by simp
  have herase : (s.pending.eraseIdx s.serviceIdx).length + 1 = s.pending.length := by
    have := pickIdx_lt s.turnClient hp
    have hlen := List.length_eraseIdx_of_lt (i := s.serviceIdx) (l := s.pending) this
    have := List.length_pos_iff.mpr hp
    omega
  rcases step_cases h with ⟨hr, rfl⟩ | ⟨c, -, rfl⟩ | ⟨hs, -⟩ | ⟨p, i, -, -, he⟩
  · have hne : s.turns ≠ [] := by rintro hn; simp [hn] at hr
    have := List.length_pos_iff.mpr hne
    simp; omega
  · simp only [State.retire_turns, State.retire_pending]; omega
  · exact absurd ((inService_eq_none_iff s).mp hs) hp
  · obtain ⟨p', r, -, -, rfl⟩ := (exec_next_iff i s t).mp he
    simp only [State.deliver_turns, State.deliver_pending]; omega

/-! ### Runs -/

@[simp] theorem run_zero (s : State) : Host.Core.run Sys2Proof.core 0 s = .next s := rfl

theorem coreRun_of_next (M : Host.Core) {s t : M.State} (h : M.step s = .next t) (k : Nat) :
    M.run (k + 1) s = M.run k t := by
  rw [Host.Core.run, h]

theorem coreRun_of_refused (M : Host.Core) {s : M.State} {r : M.Refusal} (h : M.step s = .refused r)
    (k : Nat) : M.run (k + 1) s = .refused r := by
  rw [Host.Core.run, h]

theorem coreRun_of_fault (M : Host.Core) {s : M.State} {f : M.Fault} (h : M.step s = .fault f)
    (k : Nat) : M.run (k + 1) s = .fault f := by
  rw [Host.Core.run, h]

theorem run_of_next {s t : State} (h : step s = .next t) (k : Nat) :
    Host.Core.run Sys2Proof.core (k + 1) s = Host.Core.run Sys2Proof.core k t :=
  coreRun_of_next Sys2Proof.core h k

theorem run_of_refused {s : State} {r : Refusal} (h : step s = .refused r) (k : Nat) :
    Host.Core.run Sys2Proof.core (k + 1) s = .refused r :=
  coreRun_of_refused Sys2Proof.core h k

theorem run_of_fault {s : State} {f : Fault} (h : step s = .fault f) (k : Nat) :
    Host.Core.run Sys2Proof.core (k + 1) s = .fault f :=
  coreRun_of_fault Sys2Proof.core h k

end Sys2Proof.Machine
end

