-- ==== Sys2Proof/Laws/Safety.lean ====
section
/-! SUPPORT. The small lemmas of the terms that the claims are stated in. -/

namespace Sys2Proof.Machine

theorem State.noReset.next {s : State} (h : s.noReset) : s.noResetNext :=
  fun t ht => h t (List.mem_of_mem_head? ht)

theorem receivedBy_concat (client : Nat) (ds : List Delivered) (d : Delivered) :
    receivedBy client (ds ++ [d]) =
      receivedBy client ds ++ if d.client = client then [d.response] else [] := by
  by_cases h : d.client = client <;> simp [receivedBy, List.filter_append, h]

/-- A request that is the oldest of its client is the first of its client's verdicts. -/
theorem verdictsFor_split (client : Nat) {before after : List Presented} {p : Presented}
    (h : ∀ x ∈ before, x.client ≠ p.client) :
    verdictsFor client (before ++ p :: after) =
      (if p.client = client then [respond p.request] else []) ++ verdictsFor client (before ++ after) := by
  by_cases hc : p.client = client
  · have hb : before.filter (fun p => p.client == client) = [] := by
      rw [List.filter_eq_nil_iff]
      intro x hx
      simpa [← hc] using h x hx
    simp [verdictsFor, List.filter_append, hc, hb]
  · simp [verdictsFor, List.filter_append, hc]

end Sys2Proof.Machine
end

