-- ==== Sys2Proof/Tests/Slice0.lean ====
section
/-!
SUPPORT. The model's own tests. Every expected value is copied from 95_test_vectors.md (the section is named
beside it) or worked out by hand from the rule named; none is the model's own answer. Then one witness for
the hypotheses of each obligation that has some.
-/

namespace Sys2Proof.Tests

open Sys2Proof Sys2Proof.Machine

/-- A request with every bus given. -/
def req (w : CmdWord) (a : Record) (b : Record := 0) (bs : List Byte := []) : Request := ⟨w, a, b, bs⟩

/-- One client, number 7, has presented one request. -/
def one (q : Request) : State := { pending := [⟨7, q⟩], turns := [], delivered := [] }

/-- The response a next state has given last. -/
def answerOf : Host.Outcome State Fault Refusal → Option Response
  | .next t => t.delivered.getLast?.map Delivered.response
  | _ => none

/-- The result of the last response of one step on one request. -/
def resultOf (q : Request) : Option Bus := (answerOf (step (one q))).bind Response.result?

/-- The reason a step on one request is refused. -/
def refusalOf (q : Request) : Option Refusal :=
  match step (one q) with
  | .refused r => some r
  | _ => none

/-- The record `A` of 95_test_vectors.md section 2. -/
def recordA : Record := 0x0123456789ABCDEFFEDCBA9876543210

/-- The bytes of `A`. -/
def bytesA : List Byte :=
  [0x01, 0x23, 0x45, 0x67, 0x89, 0xAB, 0xCD, 0xEF, 0xFE, 0xDC, 0xBA, 0x98, 0x76, 0x54, 0x32, 0x10]

/-! ### Well-formedness: each check with a term it refuses -/

theorem test_wf_refuses_width_over_64 : (Instr.readBits 0 65).wf = false := by decide
theorem test_wf_refuses_range_past_bit_0 : (Instr.readBits 127 2).wf = false := by decide
theorem test_wf_accepts_boundary_fields :
    (Instr.readBits 64 64).wf = true ∧ (Instr.readBits 127 1).wf = true ∧
    (Instr.readBits 127 0).wf = true := by decide

/-! ### Decoding: words written out from 30_encoding.md R66, verdicts of 95_test_vectors.md 2.7 -/

theorem test_decode_rec_from_bytes :
    decode 0b00000000000000000000000000000000#32 = .ok .recFromBytes := by decide
theorem test_decode_rec_to_bytes :
    decode 0b00000000000000000000000000000001#32 = .ok .recToBytes := by decide
theorem test_decode_rec_byte :
    decode 0b00000000000000000000000001010010#32 = .ok (.recByte 5) := by decide
theorem test_decode_rec_eq :
    decode 0b00000000000000000000000000000011#32 = .ok .recEq := by decide
theorem test_decode_get_flag :
    decode 0b00000000000000000000000000000100#32 = .ok .getFlag := by decide
theorem test_decode_get_file_boffset :
    decode 0b00000000000000000000000000000101#32 = .ok .getFileBoffset := by decide
theorem test_decode_get_fsb_index :
    decode 0b00000000000000000000000000000110#32 = .ok .getFsbIndex := by decide
theorem test_decode_get_fsb_count :
    decode 0b00000000000000000000000000000111#32 = .ok .getFsbCount := by decide
theorem test_decode_read_bits :
    decode 0b00000000010000000100000000001000#32 = .ok (.readBits 64 64) ∧
    decode 0b00000000000100000111000000001000#32 = .ok (.readBits 112 16) := by decide
theorem test_decode_refuses_reserved_op :
    decode 0x00000009 = .error .reservedOp ∧ decode 0x0000000F = .error .reservedOp := by decide
theorem test_decode_refuses_reserved_bits :
    decode 0x00008000 = .error .reservedBits ∧ decode 0x80000000 = .error .reservedBits ∧
    decode 0x00800004 = .error .reservedBits ∧ decode 0x00408008 = .error .reservedBits ∧
    decode 0x00000010 = .error .reservedBits ∧ decode 0x00000104 = .error .reservedBits ∧
    decode 0x00010000 = .error .reservedBits := by decide
theorem test_decode_refuses_field_range :
    decode 0x00410008 = .error .fieldRange ∧ decode 0x00107808 = .error .fieldRange ∧
    decode 0x00027F08 = .error .fieldRange := by decide
/-- Two faults in one word: the earlier check of 30_encoding.md R73 gives the reason (60_exceptions.md R173). -/
theorem test_decode_first_check_gives_reason :
    decode 0x80000009 = .error .reservedOp ∧ decode 0x00418008 = .error .reservedBits := by decide
theorem test_decode_table_word :
    decodeTableWord 32 0x00360108 = some (.readBits 1 54) ∧ decodeTableWord 32 0x9 = none := by decide

/-! ### The operations -/

/-- 95_test_vectors.md 2.1. -/
theorem test_rec_from_bytes_builds :
    answerOf (step (one (req 0 0 0 bytesA))) = some (.ok recordA) := by decide
/-- 95_test_vectors.md 2.1: no truncation, no padding. -/
theorem test_rec_from_bytes_refuses_other_lengths :
    answerOf (step (one (req 0 0 0 []))) = some (.err .invalidLength) ∧
    answerOf (step (one (req 0 0 0 (List.replicate 15 0)))) = some (.err .invalidLength) ∧
    answerOf (step (one (req 0 0 0 (bytesA ++ [0])))) = some (.err .invalidLength) := by decide
/-- 95_test_vectors.md 2.2. -/
theorem test_rec_to_bytes :
    resultOf (req 1 recordA) = some recordA ∧ recordBytes recordA = bytesA := by decide
/-- 95_test_vectors.md 2.3. -/
theorem test_rec_byte :
    resultOf (req 0x02 recordA) = some 0x01 ∧ resultOf (req 0x52 recordA) = some 0xAB ∧
    resultOf (req 0xF2 recordA) = some 0x10 := by decide
/-- 95_test_vectors.md 2.4: equal, and records that differ in bit 0 or in the flag only. -/
theorem test_rec_eq :
    resultOf (req 3 recordA recordA) = some 1 ∧
    resultOf (req 3 recordA 0x0123456789ABCDEFFEDCBA9876543211) = some 0 ∧
    resultOf (req 3 0x80000000000000000000000000000000 0) = some 0 := by decide
/-- 95_test_vectors.md S2. -/
theorem test_get_flag :
    resultOf (req 4 0x7FFFFFFFFFFFFFFFFFFFFFFFFFFFFFFF) = some 0 ∧
    resultOf (req 4 0x80000000000000000000000000000000) = some 1 := by decide
/-- 95_test_vectors.md 2.6: the mixed record, and the top 7 bits of byte 6 (90_conflicts.md C6). -/
theorem test_get_file_boffset :
    resultOf (req 5 recordA) = some 0x91A2B3C4D5E6 ∧
    resultOf (req 5 0x000000000000FE000000000000000000) = some 0x7F ∧
    resultOf (req 5 0x80000000000000000000000000000000) = some 0 ∧
    resultOf (req 5 0xFFFFFFFFFFFFFFFFFFFFFFFFFFFFFFFF) = some 0x3FFFFFFFFFFFFF := by decide
/-- 95_test_vectors.md 2.6. -/
theorem test_get_fsb_index :
    resultOf (req 6 recordA) = some 0xF7FF6E5D4C3B2 ∧
    resultOf (req 6 0x00000000000001000000000000000000) = some 0x8000000000000 ∧
    resultOf (req 6 0x00000000000000000000000000E00000) = some 0x7 := by decide
/-- 95_test_vectors.md 2.6. -/
theorem test_get_fsb_count :
    resultOf (req 7 recordA) = some 0x143210 ∧
    resultOf (req 7 0x000000000000000000000000001F0000) = some 0x1F0000 := by decide
/-- 95_test_vectors.md 2.5. -/
theorem test_read_bits :
    resultOf (req 0x00090308 recordA) = some 0x12 ∧
    resultOf (req 0x00083C08 recordA) = some 0xFF ∧
    resultOf (req 0x00394708 recordA) = some 0xDCBA9876543210 ∧
    resultOf (req 0x00007F08 recordA) = some 0 ∧
    resultOf (req 0x00020008 0x80000000000000000000000000000000) = some 0x2 := by decide
/-- 95_test_vectors.md P4: refused words have no response. -/
theorem test_read_bits_out_of_range_is_refused :
    refusalOf (req 0x00107808 recordA) = some (.illegalCommand .fieldRange) ∧
    refusalOf (req 0x00000014 recordA) = some (.illegalCommand .reservedBits) := by decide

/-! ### The byte-wise forms of 41_bitfield_decoder.md R122, on values of 95_test_vectors.md 2.5 -/

theorem test_read_bits_whole : readBitsWhole recordA 71 57 = 0xDCBA9876543210 := by decide
theorem test_read_bits_64 : readBits64 recordA 71 57 = 0xDCBA9876543210 := by decide

/-! ### The word that the host places -/

/-- A word placed after reset is the first one that runs: GET_FLAG of an undriven (zero) bus is 0
(42_extent_unpacker.md R140, log 11). -/
theorem test_placed_word_runs_after_reset :
    answerOf (step (State.reset.withFetchWord 32 0x00000004)) = some (.ok 0) := by decide

/-! ### Reset and turns -/

/-- Reset takes the request in progress and gives no response (70_reset_and_hazards.md R200). -/
theorem test_reset_during_request :
    step { pending := [⟨7, req 4 recordA⟩], turns := [.resetDuring 7], delivered := [] } =
      .next State.reset := by rfl
/-- Client 2's turn serves client 2's oldest request (log 5). -/
theorem test_turn_serves_its_client :
    ({ pending := [⟨1, req 4 0⟩, ⟨2, req 5 0⟩, ⟨2, req 6 0⟩], turns := [.serve 2], delivered := [] } : State).inService
      = some ⟨2, req 5 0⟩ := by decide

/-! ### The assembler: program P2 of 95_test_vectors.md in part -/

/-- A record built by one line is an operand of the next (70_reset_and_hazards.md R202); an index of 16
makes no request (92_eei_decisions.md D15). -/
theorem test_assembler_lines :
    (match runLines 3 [⟨0, .recFromBytes bytesA⟩, ⟨1, .recByte (.var 0) 15⟩] State.reset [] with
      | .ok (_, vars) => vars
      | .error _ => []) = [⟨1, false, .ok 0x10⟩, ⟨0, true, .ok recordA⟩] ∧
    (AsmOp.recByte (.lit recordA) 16).assemble [] = none := by decide

/-- What the lines of a host have bound, or why it stopped. -/
def boundBy : Except HostStop (State × List HostVar) → Except HostStop (List HostVar)
  | .ok (_, vars) => .ok vars
  | .error e => .error e

/-- The variable receives the response to its own line's request, byte 5 of A (95_test_vectors.md 2.3), though
a request of another client and an older one of this client wait already (00_scope.md R16; log 15). -/
theorem test_line_receives_its_own_response :
    boundBy (runLine 3 ⟨0, .recByte (.lit recordA) 5⟩
      { pending := [⟨1, req 4 0⟩, ⟨3, req 7 recordA⟩], turns := [.reset, .serve 3], delivered := [] } []) =
      .ok [⟨0, false, .ok 0xAB⟩] := by decide

/-- Reset takes the line's request, and the host presents it again (70_reset_and_hazards.md R200). -/
theorem test_line_lost_to_reset_is_presented_again :
    boundBy (runLine 3 ⟨0, .recByte (.lit recordA) 5⟩ { State.reset with turns := [.resetDuring 3] } []) =
      .ok [⟨0, false, .ok 0xAB⟩] := by decide

/-! ### Witnesses: a concrete input that meets the hypotheses of each obligation that has some -/

theorem witness_DecodeOfEncodeIsTheCommand : (Instr.readBits 64 64).wf = true := by decide
theorem witness_EncodeOfDecodeIsTheWord : decode 0x00017F08 = .ok (.readBits 127 1) := by decide
theorem witness_DecodeAgreesWithOpcodeTable :
    decode 0xF2 = .ok (.recByte 15) ∧ (tableRow (.recByte 0)).matches 0xF2 = true ∧
    (tableRow (.readBits 0 0)).matches 0x00410008 = true := by decide
theorem witness_FieldsPartitionTheRecord : 0 < 128 ∧ 73 ≤ Field.fileBlockOffset.hi := by decide
theorem witness_RecordIsBigEndian : 7 < 8 := by decide
theorem witness_RecFromBytesBuildsTheRecord :
    (one (req 0 0 0 bytesA)).inService = some ⟨7, req 0 0 0 bytesA⟩ ∧ (req 0 0 0 bytesA).len = 16 ∧
    (one (req 0 0 0 [])).inService = some ⟨7, req 0 0 0 []⟩ ∧ (req 0 0 0 []).len ≠ 16 := by decide
theorem witness_InvalidLengthExactlyOnOtherLengths :
    (one (req 0 0 0 [])).inService = some ⟨7, req 0 0 0 []⟩ ∧
    exec .recFromBytes (one (req 0 0 0 [])) =
      .next ((one (req 0 0 0 [])).deliver 7 (.err .invalidLength)) := ⟨rfl, rfl⟩
theorem witness_RecToBytesReturnsTheBytes :
    (one (req 1 recordA)).inService = some ⟨7, req 1 recordA⟩ := rfl
theorem witness_RecByteReturnsTheByte :
    (one (req 0xF2 recordA)).inService = some ⟨7, req 0xF2 recordA⟩ ∧ 16 ≤ 16 := by decide
theorem witness_RecEqComparesBytes :
    (one (req 3 recordA recordA)).inService = some ⟨7, req 3 recordA recordA⟩ ∧
    (one (req 3 recordA 0)).inService = some ⟨7, req 3 recordA 0⟩ ∧ recordA ≠ 0 := by decide
theorem witness_RecordsRoundTripThroughBytes : bytesA.length = 16 := by decide
theorem witness_ReadBitsReturnsTheSlice :
    (64#7).toNat ≤ 64 ∧ (64#7).toNat + (64#7).toNat ≤ 128 ∧
    (one (req 0x00404008 recordA)).inService = some ⟨7, req 0x00404008 recordA⟩ := by decide
theorem witness_OnlyLegalFieldsAreRead :
    ((1#7).toNat ≤ 64 ∧ (127#7).toNat + (1#7).toNat ≤ 128) ∧
    ¬ ((2#7).toNat ≤ 64 ∧ (127#7).toNat + (2#7).toNat ≤ 128) ∧
    ¬ ((65#7).toNat ≤ 64 ∧ (0#7).toNat + (65#7).toNat ≤ 128) := by decide
theorem witness_ReadBitsCornerCases :
    (one (req 8 recordA)).inService = some ⟨7, req 8 recordA⟩ ∧
    1 ≤ (64#7).toNat ∧ (64#7).toNat ≤ 64 ∧ (64#7).toNat + (64#7).toNat = 128 ∧
    exec (.readBits 127 1) (one (req 8 recordA)) = .next ((one (req 8 recordA)).deliver 7 (.ok 0)) :=
  ⟨rfl, by decide, by decide, by decide, rfl⟩
theorem witness_ByteWiseForms :
    1 ≤ (64#7).toNat ∧ (64#7).toNat ≤ 64 ∧ (64#7).toNat + (64#7).toNat ≤ 128 ∧
    1 ≤ (1#7).toNat ∧ (127#7).toNat + (1#7).toNat ≤ 128 := by decide
theorem witness_GetFlagReturnsBit127 :
    (one (req 4 recordA)).inService = some ⟨7, req 4 recordA⟩ ∧ recordA.getLsbD 127 = false ∧
    (0x80000000000000000000000000000000 : Record).getLsbD 127 = true := by decide
theorem witness_GetFieldAccessors :
    (one (req 5 recordA)).inService = some ⟨7, req 5 recordA⟩ ∧
    (one (req 6 recordA)).inService = some ⟨7, req 6 recordA⟩ ∧
    (one (req 7 recordA)).inService = some ⟨7, req 7 recordA⟩ := by decide
theorem witness_FieldsReconstructTheRecord :
    (1 : Bus).toNat < 2 ∧ (0x3FFFFFFFFFFFFF : Bus).toNat < 2 ^ 54 ∧ (0xFFFFFFFFFFFFF : Bus).toNat < 2 ^ 52 ∧
    (0x1FFFFF : Bus).toNat < 2 ^ 21 := by decide
/-- Two different records that agree on the whole count field. -/
theorem witness_AccessorsReadOnlyTheirField :
    (∀ i < 21, (0x80000000000000000000000000000001 : Record).getLsbD i = (1 : Record).getLsbD i) ∧
    (0x80000000000000000000000000000001 : Record) ≠ 1 := by decide
theorem witness_EveryOperationCompletes :
    Instr.getFsbIndex.wf = true ∧ (one (req 6 recordA)).inService = some ⟨7, req 6 recordA⟩ := by decide
theorem witness_FrameOfEveryOperation :
    exec .recToBytes (one (req 1 recordA)) = .next ((one (req 1 recordA)).deliver 7 (.ok recordA)) := rfl
theorem witness_ResultsFitTheirNaturalWidth :
    (one (req 7 recordA)).inService = some ⟨7, req 7 recordA⟩ ∧
    exec .getFsbCount (one (req 7 recordA)) = .next ((one (req 7 recordA)).deliver 7 (.ok 0x143210)) :=
  ⟨rfl, rfl⟩
theorem witness_UnusedOperandsAreIgnored :
    decode 0 = .ok .recFromBytes ∧ decode 3 = .ok .recEq ∧
    decode 4 ≠ .ok .recFromBytes ∧ decode 4 ≠ .ok .recEq := by decide
theorem witness_StepRunsTheDecodedCommand :
    (one (req 4 recordA)).noResetNext ∧ (one (req 4 recordA)).inService = some ⟨7, req 4 recordA⟩ ∧
    decode (req 4 recordA).cmd = .ok .getFlag :=
  ⟨fun t h => (by cases h), rfl, by decide⟩
theorem witness_StepAnswersAsTheRequestAlone :
    (∀ q, (one q).noResetNext) ∧ (∀ q, (one q).inService = some ⟨7, q⟩) ∧
    respond (req 4 recordA) = .ok (.ok 0) ∧ respond (req 9 recordA) = .error .reservedOp :=
  ⟨fun _ _ h => (by cases h), fun _ => rfl, by decide, by decide⟩
/-- With the states `one q` of the witness before: a word refused, one that cannot fail, and one that can. -/
theorem witness_EveryRequestHasOneVerdict :
    decode (req 9 recordA).cmd = .error .reservedOp ∧ decode (req 4 recordA).cmd = .ok .getFlag ∧
    decode (req 0 0 0 []).cmd = .ok .recFromBytes := by decide
theorem witness_InvariantViolations :
    State.reset.inService = none ∧ (Instr.readBits 0 65).wf = false := by decide
theorem witness_HistoryNeverAffectsAStep :
    step (one (req 4 recordA)) = .next ((one (req 4 recordA)).deliver 7 (.ok 0)) ∧
    step (one (req 9 recordA)) = .refused (.illegalCommand .reservedOp) := ⟨rfl, rfl⟩
theorem witness_IdleStepChangesNothing : State.reset.noResetNext ∧ State.reset.pending = [] :=
  ⟨fun t h => (by cases h), rfl⟩
/-- For each clause of TurnServesTheOldestRequestOfItsClient: a named client that has a request, one that
has none, and no turn at all. -/
theorem witness_TurnServesTheOldestRequestOfItsClient :
    (∀ turn ∈ [Turn.serve 2, .resetDuring 2],
      let s : State := { pending := [⟨2, req 4 0⟩], turns := [turn], delivered := [] }
      (s.turns.head? = some (.serve 2) ∨ s.turns.head? = some (.resetDuring 2)) ∧
        ∃ x ∈ s.pending, x.client = 2) ∧
    (∀ turn ∈ [Turn.serve 1, .resetDuring 1],
      let s : State := { pending := [⟨2, req 4 0⟩], turns := [turn], delivered := [] }
      (s.turns.head? = some (.serve 1) ∨ s.turns.head? = some (.resetDuring 1)) ∧
        ∀ x ∈ s.pending, x.client ≠ 1) ∧
    (one (req 4 0)).turns = [] := by decide
theorem witness_FirstRequestAfterResetIsAnswered :
    (∀ t ∈ [Turn.serve 3], ∃ d, t = Turn.serve d) ∧
    respond (req 0 0 0 []) = .ok (.err .invalidLength) ∧ decode (req 0 0 0 []).cmd = .ok .recFromBytes :=
  ⟨fun t h => ⟨3, by simpa using h⟩, by decide, by decide⟩
/-- For each clause of ResetTakesOnlyTheRequestInProgress: a bare reset; and a reset during a request of
client 7 with no request waiting, with one of client 7, and with only another client's. -/
theorem witness_ResetTakesOnlyTheRequestInProgress :
    ({ pending := [⟨7, req 4 0⟩], turns := [.reset], delivered := [] } : State).turns.head? = some .reset ∧
    (let during (ps : List Presented) : State := { pending := ps, turns := [.resetDuring 7], delivered := [] }
     (∀ ps, (during ps).turns.head? = some (.resetDuring 7)) ∧ (during []).pending = [] ∧
     (∃ x ∈ (during [⟨7, req 4 0⟩]).pending, x.client = 7) ∧
     ∀ x ∈ (during [⟨2, req 4 0⟩]).pending, x.client ≠ 7) :=
  ⟨rfl, fun _ => rfl, rfl, by decide, by decide⟩
/-- For each clause of EveryStepKeepsTheRunInvariant: a state that meets the invariant and takes a step that is
no reset; and a reset during a request, and one with none waiting. -/
theorem witness_EveryStepKeepsTheRunInvariant :
    RunInv [⟨7, req 4 0⟩] (one (req 4 0)) ∧
    step (one (req 4 0)) = .next ((one (req 4 0)).deliver 7 (.ok 0)) ∧
    (∀ d, (one (req 4 0)).turns.head? ≠ some (.resetDuring d)) ∧
    (let lost : State := { one (req 4 0) with turns := [.resetDuring 7] }
     step lost = .next State.reset ∧ lost.turns.head? = some (.resetDuring 7) ∧
     lost.inService = some ⟨7, req 4 0⟩) ∧
    (let idle : State := { State.reset with turns := [.resetDuring 7] }
     step idle = .next State.reset ∧ idle.turns.head? = some (.resetDuring 7) ∧ idle.inService = none) :=
  ⟨fun c => by simp [accountOf, one, receivedBy], rfl, fun d h => (by cases h), ⟨rfl, rfl, rfl⟩, rfl, rfl, rfl⟩
/-- Two clients, two turns, and all requests spell operations. -/
theorem witness_EveryClientReceivesItsOwnResponses :
    ∃ s : State, s.noReset ∧ (∀ p ∈ s.pending, ∃ r, respond p.request = .ok r) ∧ s.pending.length = 2 :=
  ⟨{ pending := [⟨1, req 4 0⟩, ⟨2, req 5 0⟩], turns := [.serve 2, .serve 1], delivered := [] },
    fun t h => by simp at h; rcases h with rfl | rfl <;> exact ⟨_, rfl⟩,
    fun p h => by simp at h; rcases h with rfl | rfl <;> exact ⟨.ok 0, by decide⟩, rfl⟩
theorem witness_ObservationIsTheResponsesInRequestOrder :
    (∀ t ∈ [Turn.serve 3], ∃ d, t = Turn.serve d) ∧ [req 4 recordA, req 7 recordA].map respond =
      [Response.ok 0, Response.ok 0x143210].map Except.ok :=
  ⟨fun t h => ⟨3, by simpa using h⟩, by decide⟩
theorem witness_RunWithARefusedRequestEndsRefused :
    (one (req 9 0)).noReset ∧ ∃ p ∈ (one (req 9 0)).pending, ∃ e, respond p.request = .error e :=
  ⟨fun t h => by simp [one] at h, ⟨7, req 9 0⟩, by simp [one], .reservedOp, by decide⟩
theorem witness_PlacedWordRunsNext : 4 < 2 ^ 32 ∧ decode (BitVec.ofNat 32 4) = .ok .getFlag := by decide
/-- A line whose request is answered, and one whose request is refused (95_test_vectors.md P4). -/
theorem witness_AssemblerLineReceivesItsResponse :
    State.reset.pending = [] ∧
    (AsmOp.readBits (.lit recordA) 112 16).assemble [] =
      some { undrivenRequest with cmd := 0x00107008, recA := recordA } ∧
    respond { undrivenRequest with cmd := 0x00107008, recA := recordA } = .ok (.ok 0x3210) ∧
    (AsmOp.readBits (.lit recordA) 120 16).assemble [] =
      some { undrivenRequest with cmd := 0x00107808, recA := recordA } ∧
    respond { undrivenRequest with cmd := 0x00107808, recA := recordA } = .error .fieldRange :=
  by decide
/-- For each clause of AssemblerLineReceivesItsOwnResponse, with a request of another client waiting and a reset
that takes the line's: a line that is answered, one that is refused, and one that makes no request. -/
theorem witness_AssemblerLineReceivesItsOwnResponse :
    (let s : State := { pending := [⟨1, req 4 0⟩], turns := [.resetDuring 3, .serve 1], delivered := [] }
     respond (req 4 0) = .ok (.ok 0) ∧
     (AsmOp.recByte (.lit recordA) 5).assemble [] = some { undrivenRequest with cmd := 0x52, recA := recordA } ∧
     respond { undrivenRequest with cmd := 0x52, recA := recordA } = .ok (.ok 0xAB) ∧
     boundBy (runLine 3 ⟨0, .recByte (.lit recordA) 5⟩ s []) = .ok [⟨0, false, .ok 0xAB⟩] ∧
     boundBy (runLine 3 ⟨0, .readBits (.lit recordA) 120 16⟩ s []) =
       .error (.refused (.illegalCommand .fieldRange))) ∧
    (AsmOp.recByte (.lit recordA) 16).assemble [] = none := by decide

end Sys2Proof.Tests
end

section
/-!
SUPPORT. What a decoded command promises its meaning, and the function `respond` read both ways: it refuses
exactly where the decoder does (60_exceptions.md R173), since the decoder lets no illegal READ_BITS field
through (41_bitfield_decoder.md R121).
-/

namespace Sys2Proof.Machine

/-- Only operation code 0x8 stands for READ_BITS, and the command carries the word's own fields. -/
theorem instrOfFields_eq_readBits {op idx : BitVec 4} {b n b' n' : BitVec 7}
    (h : instrOfFields op idx b n = some (.readBits b' n')) : op = 8 ∧ b' = b ∧ n' = n := by
  unfold instrOfFields at h
  split at h
  case h_9 hop =>
    cases h
    exact ⟨BitVec.eq_of_toNat_eq hop, rfl, rfl⟩
  all_goals cases h

/-- What the decoder has checked of a word it accepts. -/
theorem decode_ok_cases {w : CmdWord} {i : Instr} (h : decode w = .ok i) :
    instrOfFields (cmdOp w) (cmdIdx w) (cmdB w) (cmdN w) = some i ∧
    (cmdRsv1 w = 0 ∧ cmdRsv2 w = 0) ∧
    (cmdOp w = 0x2 ∨ cmdIdx w = 0) ∧
    (cmdOp w = 0x8 ∨ cmdB w = 0 ∧ cmdN w = 0) ∧
    (cmdOp w = 0x8 → (cmdN w).toNat ≤ 64 ∧ (cmdB w).toNat + (cmdN w).toNat ≤ 128) := by
  unfold decode at h
  split at h
  · cases h
  · next j hfields =>
    split_ifs at h with hrsv hidx hbn hrange
    cases h
    refine ⟨hfields, ?_, ?_, ?_, ?_⟩
    · tauto
    · tauto
    · tauto
    · intro hop
      simpa [hop] using hrange

/-- The decoder accepts no READ_BITS field that is not legal. -/
theorem fieldLegal_of_decode {w : CmdWord} {b n : BitVec 7} (h : decode w = .ok (.readBits b n)) :
    fieldLegal b n = true := by
  obtain ⟨hfields, -, -, -, hrange⟩ := decode_ok_cases h
  obtain ⟨hop, rfl, rfl⟩ := instrOfFields_eq_readBits hfields
  exact (fieldLegal_iff _ _).mpr (hrange hop)

/-- A decoded command has a response on every request. -/
theorem response_of_decode {w : CmdWord} {i : Instr} (h : decode w = .ok i) (q : Request) :
    ∃ r, (callOf i q).response = some r := by
  cases i
  case readBits b n => exact ⟨_, by rw [callOf, Call.response, if_pos (fieldLegal_of_decode h)]⟩
  all_goals exact ⟨_, rfl⟩

theorem respond_of_decode_error {q : Request} {e : IllegalReason} (h : decode q.cmd = .error e) :
    respond q = .error e := by
  simp [respond, h]

theorem respond_of_decode_ok {q : Request} {i : Instr} {r : Response} (h : decode q.cmd = .ok i)
    (hr : (callOf i q).response = some r) : respond q = .ok r := by
  simp [respond, h, hr]

theorem respond_eq_error_iff (q : Request) (e : IllegalReason) :
    respond q = .error e ↔ decode q.cmd = .error e := by
  refine ⟨fun h => ?_, respond_of_decode_error⟩
  cases hd : decode q.cmd with
  | error e' => rw [respond_of_decode_error hd] at h; cases h; rfl
  | ok i =>
    obtain ⟨r, hr⟩ := response_of_decode hd q
    rw [respond_of_decode_ok hd hr] at h
    cases h

theorem respond_eq_ok_iff (q : Request) (r : Response) :
    respond q = .ok r ↔ ∃ i, decode q.cmd = .ok i ∧ (callOf i q).response = some r := by
  refine ⟨fun h => ?_, fun ⟨i, hd, hr⟩ => respond_of_decode_ok hd hr⟩
  cases hd : decode q.cmd with
  | error e => rw [respond_of_decode_error hd] at h; cases h
  | ok i =>
    obtain ⟨r', hr⟩ := response_of_decode hd q
    rw [respond_of_decode_ok hd hr] at h
    cases h
    exact ⟨i, rfl, hr⟩

end Sys2Proof.Machine
end

section
/-!
SUPPORT. A step in terms of `respond`: what a serving turn does, what a step that answers, refuses or takes a
request did, and that no step faults (60_exceptions.md R176).
-/

namespace Sys2Proof.Machine

/-- A turn that serves runs the decoded command, or is refused with the decoder's reason. -/
theorem step_of_noResetNext {s : State} {p : Presented} (hn : s.noResetNext) (hs : s.inService = some p) :
    (∀ i, decode p.request.cmd = .ok i → step s = exec i s) ∧
    (∀ e, decode p.request.cmd = .error e → step s = .refused (.illegalCommand e)) := by
  unfold step
  split
  · next ht => obtain ⟨_, hc⟩ := hn _ ht; cases hc
  · next ht => obtain ⟨_, hc⟩ := hn _ ht; cases hc
  · simp +contextual [hs]

/-- A turn that serves delivers the response that the request alone determines. -/
theorem step_of_respond_ok {s : State} {p : Presented} {r : Response} (hn : s.noResetNext)
    (hs : s.inService = some p) (hr : respond p.request = .ok r) : step s = .next (s.deliver p.client r) := by
  obtain ⟨i, hd, hcall⟩ := (respond_eq_ok_iff _ _).mp hr
  rw [(step_of_noResetNext hn hs).1 i hd, exec_of_response hs hcall]

/-- A turn that serves a word spelling no operation ends refused with the reason of that word. -/
theorem step_of_respond_error {s : State} {p : Presented} {e : IllegalReason} (hn : s.noResetNext)
    (hs : s.inService = some p) (he : respond p.request = .error e) :
    step s = .refused (.illegalCommand e) :=
  (step_of_noResetNext hn hs).2 e ((respond_eq_error_iff _ _).mp he)

theorem step_ne_fault (s : State) (f : Fault) : step s ≠ .fault f := by
  intro h
  unfold step at h
  split at h
  · cases h
  · cases h
  · split at h
    · cases h
    · next p hs =>
      split at h
      · cases h
      · next i hd =>
        obtain ⟨r, hr⟩ := response_of_decode hd p.request
        rw [exec_of_response hs hr] at h
        cases h

theorem mem_pending_of_inService {s : State} {p : Presented} (h : s.inService = some p) : p ∈ s.pending :=
  List.mem_of_getElem? h

/-- A refusal is that of a request that waits. -/
theorem refused_request_of_step {s : State} {x : Refusal} (h : step s = .refused x) :
    ∃ e, x = .illegalCommand e ∧ ∃ p ∈ s.pending, respond p.request = .error e := by
  obtain ⟨p, e, hs, hd, rfl⟩ := step_refused_cases h
  exact ⟨e, rfl, p, mem_pending_of_inService hs, respond_of_decode_error hd⟩

/-- What a step does while a request waits: a bare reset passes, or the request in service leaves the port,
lost to a reset turn or answered as it would be alone. -/
theorem step_waiting_cases {s t : State} (h : step s = .next t) (hp : s.pending ≠ []) :
    t = s.passTurn ∨
    ∃ p, s.inService = some p ∧
      ((s.turns ≠ [] ∧ t = s.retire) ∨ ∃ r, respond p.request = .ok r ∧ t = s.deliver p.client r) := by
  rcases step_cases h with ⟨-, rfl⟩ | ⟨c, ht, rfl⟩ | ⟨-, rfl⟩ | ⟨p, i, hs, hd, he⟩
  · exact .inl rfl
  · obtain ⟨p, hs⟩ := Option.ne_none_iff_exists'.mp (mt (inService_eq_none_iff s).mp hp)
    have hne : s.turns ≠ [] := by rintro hnil; simp [hnil] at ht
    exact .inr ⟨p, hs, .inl ⟨hne, rfl⟩⟩
  · exact .inl rfl
  · obtain ⟨p', r, hs', hr, rfl⟩ := (exec_next_iff i s t).mp he
    obtain rfl : p = p' := Option.some.inj (hs.symm.trans hs')
    exact .inr ⟨p, hs, .inr ⟨r, respond_of_decode_ok hd hr, rfl⟩⟩

theorem length_retire_pending {s : State} (h : s.pending ≠ []) :
    s.retire.pending.length + 1 = s.pending.length := by
  rw [State.retire_pending, State.serviceIdx, List.length_eraseIdx_add_one (pickIdx_lt s.turnClient h)]

/-- A step presents no request. -/
theorem step_pending_subset {s t : State} (h : step s = .next t) : t.pending ⊆ s.pending := by
  rcases step_cases h with ⟨-, rfl⟩ | ⟨-, -, rfl⟩ | ⟨-, rfl⟩ | ⟨-, i, -, -, he⟩
  · simp
  · simpa using List.eraseIdx_subset
  · simp
  · obtain ⟨_, _, -, -, rfl⟩ := (exec_next_iff i s t).mp he
    simpa using List.eraseIdx_subset

end Sys2Proof.Machine
end

section
/-!
SUPPORT. The requests of one client among those that wait. The host of an assembler line waits for the last of
them (log 15), so what a step does to that last request is what decides when the line is answered.
-/

namespace Sys2Proof.Machine

/-- The waiting requests of a client, oldest first. -/
def State.requestsOf (s : State) (c : Nat) : List Presented := s.pending.filter fun p => p.client == c

/-- `q` waits, and no younger request of the client `c` does. -/
def State.LastRequest (s : State) (c : Nat) (q : Request) : Prop :=
  (s.requestsOf c).getLast? = some ⟨c, q⟩

theorem State.waiting_eq_length_requestsOf (s : State) (c : Nat) : s.waiting c = (s.requestsOf c).length :=
  List.countP_eq_length_filter

theorem State.LastRequest.mem_pending {s : State} {c : Nat} {q : Request} (h : s.LastRequest c q) :
    ⟨c, q⟩ ∈ s.pending :=
  List.mem_of_mem_filter (List.mem_of_getLast? h)

theorem State.LastRequest.waiting_ne_zero {s : State} {c : Nat} {q : Request} (h : s.LastRequest c q) :
    s.waiting c ≠ 0 := by
  intro h0
  exact (waiting_eq_zero_iff s c).mp h0 _ h.mem_pending rfl

theorem State.lastRequest_present (s : State) (c : Nat) (q : Request) : (s.present c q).LastRequest c q := by
  simp [State.LastRequest, State.requestsOf, List.filter_append]

/-- The request in service is the oldest of its client, and leaves the other clients' requests alone. -/
theorem requestsOf_of_inService {s t : State} {p : Presented} (hs : s.inService = some p)
    (ht : t.pending = s.pending.eraseIdx s.serviceIdx) (c : Nat) :
    s.requestsOf c = (if p.client = c then [p] else []) ++ t.requestsOf c := by
  obtain ⟨before, after, hsplit, hbefore, herase⟩ := inService_split hs
  unfold State.requestsOf
  rw [ht, herase, hsplit]
  by_cases hc : p.client = c
  · have hb : before.filter (fun x => x.client == c) = [] := by
      rw [List.filter_eq_nil_iff]
      intro x hx
      simpa [← hc] using hbefore x hx
    simp [List.filter_append, hc, hb]
  · simp [List.filter_append, hc]

/-- When the request in service leaves the port, the last request of a client still waits, or it is the one
that left and the client has none. -/
theorem lastRequest_of_inService {s t : State} {p : Presented} {c : Nat} {q : Request}
    (hlast : s.LastRequest c q) (hs : s.inService = some p)
    (ht : t.pending = s.pending.eraseIdx s.serviceIdx) :
    t.LastRequest c q ∨ (t.waiting c = 0 ∧ p = ⟨c, q⟩) := by
  unfold State.LastRequest at hlast ⊢
  rw [requestsOf_of_inService hs ht c, List.getLast?_append] at hlast
  cases hrest : t.requestsOf c with
  | nil =>
    have hp : p = ⟨c, q⟩ := by
      rw [hrest] at hlast
      split at hlast
      · simpa using hlast
      · simp at hlast
    exact .inr ⟨by simp [State.waiting_eq_length_requestsOf, hrest], hp⟩
  | cons x xs => exact .inl (by simpa [hrest, List.getLast?_cons] using hlast)

/-- What a step does to the last request of a client: it still waits; or it was answered with the response it
gets alone; or a reset turn took it without one. In the last two cases the client has no request left. -/
theorem step_lastRequest_cases {s t : State} {c : Nat} {q : Request} (hlast : s.LastRequest c q)
    (h : step s = .next t) :
    (t.LastRequest c q ∧ s.delivered <+: t.delivered) ∨
    (t.waiting c = 0 ∧ ∃ r, respond q = .ok r ∧ t.delivered = s.delivered ++ [⟨c, r⟩]) ∨
    (t.waiting c = 0 ∧ s.turns ≠ [] ∧ t = s.retire) := by
  rcases step_waiting_cases h (List.ne_nil_of_mem hlast.mem_pending) with
    rfl | ⟨p, hs, ⟨hturns, rfl⟩ | ⟨r, hr, rfl⟩⟩
  · exact .inl ⟨hlast, [], by simp⟩
  · rcases lastRequest_of_inService hlast hs (State.retire_pending s) with hl | ⟨hw, -⟩
    · exact .inl ⟨hl, [], by simp⟩
    · exact .inr (.inr ⟨hw, hturns, rfl⟩)
  · rcases lastRequest_of_inService hlast hs (State.deliver_pending s p.client r) with hl | ⟨hw, rfl⟩
    · exact .inl ⟨hl, ⟨_, rfl⟩⟩
    · exact .inr (.inl ⟨hw, r, hr, rfl⟩)

end Sys2Proof.Machine
end

section
/-!
SUPPORT. The waiting host of log 15: one equation for each way its wait goes on or ends, and its outcome.
-/

namespace Sys2Proof.Machine

theorem awaitResponse_of_refused {s : State} {x : Refusal} (h : step s = .refused x) (c : Nat) (q : Request)
    (fuel : Nat) : awaitResponse c q (fuel + 1) s = .error (.refused x) := by
  simp [awaitResponse, h]

theorem awaitResponse_of_waiting {s t : State} {c : Nat} (h : step s = .next t) (hw : t.waiting c ≠ 0)
    (q : Request) (fuel : Nat) : awaitResponse c q (fuel + 1) s = awaitResponse c q fuel t := by
  simp [awaitResponse, h, hw]

theorem awaitResponse_of_answer {s t : State} {c : Nat} {d : Delivered} (h : step s = .next t)
    (hw : t.waiting c = 0) (hd : t.delivered = s.delivered ++ [d]) (q : Request) (fuel : Nat) :
    awaitResponse c q (fuel + 1) s = .ok (t, d.response) := by
  simp [awaitResponse, h, hw, hd]

theorem awaitResponse_of_lost {s t : State} {c : Nat} (h : step s = .next t) (hw : t.waiting c = 0)
    (hd : t.delivered = s.delivered) (q : Request) (fuel : Nat) :
    awaitResponse c q (fuel + 1) s = awaitResponse c q fuel (t.present c q) := by
  simp [awaitResponse, h, hw, hd]

/-- `t` is a state after `s` in which the client's request `q` has been answered, last of all and as it would be
alone, and no request of the client waits. -/
def AnsweredLast (c : Nat) (q : Request) (s t : State) (r : Response) : Prop :=
  respond q = .ok r ∧ (∃ others, t.delivered = s.delivered ++ others ++ [⟨c, r⟩]) ∧
    ∀ x ∈ t.pending, x.client ≠ c

/-- Some waiting request is refused with the reason `e`. -/
def RefusedWaiting (s : State) (e : IllegalReason) : Prop := ∃ p ∈ s.pending, respond p.request = .error e

theorem AnsweredLast.of_later {c : Nat} {q : Request} {s s' t : State} {r : Response}
    (h : AnsweredLast c q s' t r) (hmore : s.delivered <+: s'.delivered) : AnsweredLast c q s t r := by
  obtain ⟨hr, ⟨others, hd⟩, hw⟩ := h
  obtain ⟨more, hs'⟩ := hmore
  exact ⟨hr, ⟨more ++ others, by simp [hd, ← hs']⟩, hw⟩

theorem RefusedWaiting.of_subset {s s' : State} {e : IllegalReason} (h : RefusedWaiting s' e)
    (hsub : s'.pending ⊆ s.pending) : RefusedWaiting s e := by
  obtain ⟨p, hp, he⟩ := h
  exact ⟨p, hsub hp, he⟩

/-- How a wait ends: the request is answered, or a waiting request is refused. -/
def WaitEnds (c : Nat) (q : Request) (s : State) (result : Except HostStop (State × Response)) : Prop :=
  (∃ t r, result = .ok (t, r) ∧ AnsweredLast c q s t r) ∨
  ∃ e, result = .error (.refused (.illegalCommand e)) ∧ RefusedWaiting s e

theorem WaitEnds.of_later {c : Nat} {q : Request} {s s' : State} {result : Except HostStop (State × Response)}
    (h : WaitEnds c q s' result) (hmore : s.delivered <+: s'.delivered) (hsub : s'.pending ⊆ s.pending) :
    WaitEnds c q s result := by
  rcases h with ⟨t, r, hres, ht⟩ | ⟨e, hres, he⟩
  · exact .inl ⟨t, r, hres, ht.of_later hmore⟩
  · exact .inr ⟨e, hres, he.of_subset hsub⟩

/-- The wait ends within as many steps as there are turns and requests: every step uses up one of them, and a
reset that takes the request uses up a turn, which makes room for presenting it again. -/
theorem awaitResponse_ends {c : Nat} {q : Request} (fuel : Nat) (s : State) (hlast : s.LastRequest c q)
    (hfuel : s.turns.length + s.pending.length ≤ fuel) : WaitEnds c q s (awaitResponse c q fuel s) := by
  induction fuel generalizing s with
  | zero =>
    have := List.length_pos_of_mem hlast.mem_pending
    omega
  | succ fuel ih =>
    cases h : step s with
    | fault f => exact absurd h (step_ne_fault s f)
    | refused x =>
      obtain ⟨e, rfl, he⟩ := refused_request_of_step h
      exact .inr ⟨e, awaitResponse_of_refused h c q fuel, he⟩
    | next t =>
      have hmeasure := step_measure h (List.ne_nil_of_mem hlast.mem_pending)
      have hsub := step_pending_subset h
      rcases step_lastRequest_cases hlast h with ⟨hl, hmore⟩ | ⟨hw, r, hr, hd⟩ | ⟨hw, hturns, rfl⟩
      · rw [awaitResponse_of_waiting h hl.waiting_ne_zero]
        exact (ih t hl (by omega)).of_later hmore hsub
      · exact .inl ⟨t, r, awaitResponse_of_answer h hw hd q fuel, hr, ⟨[], by simpa using hd⟩,
          (waiting_eq_zero_iff t c).mp hw⟩
      · rw [awaitResponse_of_lost h hw (State.retire_delivered s)]
        refine (ih _ (State.lastRequest_present _ c q) ?_).of_later ⟨[], by simp⟩ ?_
        · have hturn := List.length_pos_iff.mpr hturns
          have hleft := length_retire_pending (List.ne_nil_of_mem hlast.mem_pending)
          simp only [State.present_turns, State.present_pending, State.retire_turns, List.length_append,
            List.length_tail, List.length_singleton]
          omega
        · simpa using ⟨hsub, hlast.mem_pending⟩

/-! ### One line -/

theorem runLine_of_not_assembled {line : AsmLine} {vars : List HostVar} (h : line.op.assemble vars = none)
    (c : Nat) (s : State) : runLine c line s vars = .error .notARequest := by
  simp [runLine, h]

/-- How a line that makes the request `q` ends: its variable is bound to the response to `q`, or the line's
word or that of a request that waited before it is refused. -/
theorem runLine_cases {line : AsmLine} {vars : List HostVar} {q : Request}
    (h : line.op.assemble vars = some q) (c : Nat) (s : State) :
    (∃ t r, runLine c line s vars = .ok (t, ⟨line.name, line.op.yieldsRecord, r⟩ :: vars) ∧
      AnsweredLast c q s t r) ∨
    ∃ e, runLine c line s vars = .error (.refused (.illegalCommand e)) ∧
      (respond q = .error e ∨ RefusedWaiting s e) := by
  have hends := awaitResponse_ends (s.turns.length + s.pending.length + 1) (s.present c q)
    (s.lastRequest_present c q) (by simp; omega)
  rcases hends with ⟨t, r, hres, ht⟩ | ⟨e, hres, p, hp, he⟩
  · exact .inl ⟨t, r, by simp [runLine, h, hres], ht⟩
  · refine .inr ⟨e, by simp [runLine, h, hres], ?_⟩
    rcases List.mem_append.mp hp with hp | hp
    · exact .inr ⟨p, hp, he⟩
    · obtain rfl := List.mem_singleton.mp hp
      exact .inl he

end Sys2Proof.Machine
end

section
/-! CLAIMS. The statements of 00_scope.md, settled. -/

namespace Sys2Proof.Machine

/-- Settles O34: `respond` refuses exactly where the decoder does, and a serving turn delivers its response. -/
theorem stepAnswersAsTheRequestAlone : Obligations.StepAnswersAsTheRequestAlone := by
  unfold Obligations.StepAnswersAsTheRequestAlone
  intro s p hn hs
  exact ⟨fun r hr => step_of_respond_ok hn hs hr, fun e he => step_of_respond_error hn hs he⟩

/-- Settles O51: a line makes no request, or ends in one of the two ways of `runLine_cases`, each of which
decides every clause. -/
theorem assemblerLineReceivesItsOwnResponse : Obligations.AssemblerLineReceivesItsOwnResponse := by
  unfold Obligations.AssemblerLineReceivesItsOwnResponse
  intro c line s vars
  cases hq : line.op.assemble vars with
  | none => simp [runLine_of_not_assembled hq]
  | some q =>
    rcases runLine_cases hq c s with ⟨t, r, hrun, hr, ⟨others, hd⟩, hw⟩ | ⟨e, hrun, he⟩
    · rw [hrun]
      refine ⟨by simp, ?_, ?_, by simp, by simp, by simp⟩
      · rintro _ _ ⟨⟩
        exact ⟨q, r, others, rfl, hr, rfl, hd, hw⟩
      · rintro _ r' ⟨⟩ hr' -
        obtain rfl : r = r' := Except.ok.inj (hr.symm.trans hr')
        exact ⟨t, rfl⟩
    · rw [hrun]
      refine ⟨by simp, by simp, ?_, ?_, by simp, by simp⟩
      · rintro _ r ⟨⟩ hr hall
        rcases he with he | ⟨p, hp, he⟩
        · simp [hr] at he
        · obtain ⟨r', hr'⟩ := hall p hp
          simp [hr'] at he
      · rintro _ ⟨⟩
        exact ⟨e, rfl, he.imp (fun he => ⟨q, rfl, he⟩) id⟩

end Sys2Proof.Machine
end

section
/-!
SUPPORT. The frame of an answer, and the operands that the request typed by its operation leaves out
(10_state.md R27; 30_encoding.md R68).
-/

namespace Sys2Proof.Machine

/-- Delivering a response to the request in service answers that request and changes nothing else. -/
theorem answered_deliver {s : State} {p : Presented} (hs : s.inService = some p) (r : Response) :
    Answered s p r (s.deliver p.client r) :=
  ⟨inService_split hs, State.deliver_turns s p.client r, State.deliver_delivered s p.client r⟩

/-- Two requests with one command word and the same typed request get the same verdict. -/
theorem respond_eq_of_callOf_eq {q q' : Request} (hcmd : q.cmd = q'.cmd)
    (hcall : ∀ i, decode q.cmd = .ok i → callOf i q = callOf i q') : respond q = respond q' := by
  cases hd : decode q.cmd with
  | error e => rw [respond_of_decode_error hd, respond_of_decode_error (hcmd ▸ hd)]
  | ok i =>
    obtain ⟨r, hr⟩ := response_of_decode hd q
    rw [respond_of_decode_ok hd hr, respond_of_decode_ok (hcmd ▸ hd) (hcall i hd ▸ hr)]

/-- Only REC_FROM_BYTES reads the bytes, and only REC_EQ reads the second record. -/
theorem callOf_eq_of_recA_eq {i : Instr} (hbytes : i ≠ .recFromBytes) (heq : i ≠ .recEq) {q q' : Request}
    (ha : q.recA = q'.recA) : callOf i q = callOf i q' := by
  cases i
  case recFromBytes => exact absurd rfl hbytes
  case recEq => exact absurd rfl heq
  all_goals simp only [callOf, ha]

end Sys2Proof.Machine
end

section
/-!
SUPPORT. The responses given before (10_state.md R26) can be set aside for a step and put back in front of what
it appends.
-/

namespace Sys2Proof.Machine

/-- The same ports with the responses `ds` given before. -/
def State.withHistory (s : State) (ds : List Delivered) : State := { s with delivered := ds }

@[simp] theorem State.withHistory_turns (s : State) (ds : List Delivered) :
    (s.withHistory ds).turns = s.turns := rfl
@[simp] theorem State.withHistory_inService (s : State) (ds : List Delivered) :
    (s.withHistory ds).inService = s.inService := rfl

/-- The same outcome, with the responses `ds` given before those of its next state. -/
def afterHistory (ds : List Delivered) : Host.Outcome State Fault Refusal → Host.Outcome State Fault Refusal
  | .next t => .next (t.withHistory (ds ++ t.delivered))
  | .fault f => .fault f
  | .refused x => .refused x

theorem afterHistory_eq_next {ds : List Delivered} {o : Host.Outcome State Fault Refusal} {t : State}
    (h : afterHistory ds o = .next t) : ∃ u, o = .next u ∧ t = u.withHistory (ds ++ u.delivered) := by
  cases o <;> cases h
  exact ⟨_, rfl, rfl⟩

theorem afterHistory_eq_refused {ds : List Delivered} {o : Host.Outcome State Fault Refusal} {x : Refusal}
    (h : afterHistory ds o = .refused x) : o = .refused x := by
  cases o <;> cases h
  rfl

theorem passTurn_withHistory (s : State) (ds : List Delivered) :
    .next (s.withHistory ds).passTurn = afterHistory ds (.next (s.withHistory []).passTurn) := by
  simp [afterHistory, State.withHistory, State.passTurn]

theorem retire_withHistory (s : State) (ds : List Delivered) :
    .next (s.withHistory ds).retire = afterHistory ds (.next (s.withHistory []).retire) := by
  simp [afterHistory, State.withHistory, State.retire, State.serviceIdx, State.turnClient]

theorem respondWith_withHistory (s : State) (ds : List Delivered) (meaning : Request → Response) :
    (s.withHistory ds).respondWith meaning = afterHistory ds ((s.withHistory []).respondWith meaning) := by
  cases hs : s.inService with
  | none =>
    rw [respondWith_of_none (s := s.withHistory ds) hs, respondWith_of_none (s := s.withHistory []) hs,
      afterHistory]
  | some p =>
    rw [respondWith_of_inService (s := s.withHistory ds) hs,
      respondWith_of_inService (s := s.withHistory []) hs]
    rfl

/-- The command alone decides whether a meaning answers the request in service or faults on its field. -/
theorem exec_eq_respondWith_or_fault (i : Instr) :
    (∃ meaning, ∀ s : State, exec i s = s.respondWith meaning) ∨ ∀ s : State, exec i s = .fault .illegalField := by
  cases i with
  | recFromBytes => exact .inl ⟨fun q => recFromBytesResponse q.bytes, fun _ => rfl⟩
  | recToBytes => exact .inl ⟨fun q => recToBytesResponse q.recA, fun _ => rfl⟩
  | recByte idx => exact .inl ⟨fun q => recByteResponse q.recA idx, fun _ => rfl⟩
  | recEq => exact .inl ⟨fun q => recEqResponse q.recA q.recB, fun _ => rfl⟩
  | getFlag => exact .inl ⟨fun q => getFlagResponse q.recA, fun _ => rfl⟩
  | getFileBoffset => exact .inl ⟨fun q => getFileBoffsetResponse q.recA, fun _ => rfl⟩
  | getFsbIndex => exact .inl ⟨fun q => getFsbIndexResponse q.recA, fun _ => rfl⟩
  | getFsbCount => exact .inl ⟨fun q => getFsbCountResponse q.recA, fun _ => rfl⟩
  | readBits b n =>
    cases hlegal : fieldLegal b n with
    | true => exact .inl ⟨fun q => readBitsResponse q.recA b n, fun _ => if_pos hlegal⟩
    | false => exact .inr fun _ => if_neg (by simp [hlegal])

/-- A meaning reads no response given before. -/
theorem exec_withHistory (i : Instr) (s : State) (ds : List Delivered) :
    exec i (s.withHistory ds) = afterHistory ds (exec i (s.withHistory [])) := by
  rcases exec_eq_respondWith_or_fault i with ⟨meaning, h⟩ | h
  · rw [h, h, respondWith_withHistory]
  · rw [h, h, afterHistory]

/-- A step reads no response given before: it appends what it would append to none. -/
theorem step_withHistory (s : State) (ds : List Delivered) :
    step (s.withHistory ds) = afterHistory ds (step (s.withHistory [])) := by
  simp only [step, State.withHistory_turns, State.withHistory_inService]
  split
  · exact passTurn_withHistory s ds
  · exact retire_withHistory s ds
  · split
    · exact passTurn_withHistory s ds
    · split
      · rfl
      · exact exec_withHistory _ s ds

end Sys2Proof.Machine
end

section
/-! SUPPORT. The word that the host places (log 11): its client's turn comes next, and it is first on the port. -/

namespace Sys2Proof.Machine

theorem noResetNext_withFetchWord (s : State) (nbits w : Nat) : (s.withFetchWord nbits w).noResetNext := by
  rintro _ ⟨⟩
  exact ⟨0, rfl⟩

theorem inService_withFetchWord (s : State) (nbits w : Nat) :
    ∃ p, (s.withFetchWord nbits w).inService = some p ∧ p.request.cmd = BitVec.ofNat 32 (w % 2 ^ nbits) := by
  simp [State.withFetchWord, State.inService, State.serviceIdx, State.turnClient, pickIdx, List.findIdx?_cons]

end Sys2Proof.Machine
end

section
/-! CLAIMS. The statements of 10_state.md, settled. -/

namespace Sys2Proof.Machine

/-- Settles O30: a meaning that answers a next state has delivered its response to the request in service. -/
theorem frameOfEveryOperation : Obligations.FrameOfEveryOperation := by
  unfold Obligations.FrameOfEveryOperation
  intro i s t h
  obtain ⟨p, r, hs, -, rfl⟩ := (exec_next_iff i s t).mp h
  exact ⟨p, r, hs, answered_deliver hs r⟩

/-- Settles O32: the typed request of each operation leaves out the buses that the operation does not use. -/
theorem unusedOperandsAreIgnored : Obligations.UnusedOperandsAreIgnored := by
  unfold Obligations.UnusedOperandsAreIgnored
  intro w a b a' b' bs bs'
  refine ⟨fun hw => ?_, fun hw => ?_, fun hbytes heq => ?_⟩ <;>
    refine respond_eq_of_callOf_eq rfl fun i hd => ?_
  · obtain rfl : Instr.recFromBytes = i := Except.ok.inj (hw.symm.trans hd)
    rfl
  · obtain rfl : Instr.recEq = i := Except.ok.inj (hw.symm.trans hd)
    rfl
  · exact callOf_eq_of_recA_eq (fun hi => hbytes (hi ▸ hd)) (fun hi => heq (hi ▸ hd)) rfl

/-- Settles O38: with every history the step appends what it would append to none. -/
theorem historyNeverAffectsAStep : Obligations.HistoryNeverAffectsAStep := by
  unfold Obligations.HistoryNeverAffectsAStep
  intro s ds
  have hown : step s = afterHistory s.delivered (step (s.withHistory [])) := step_withHistory s s.delivered
  have hother : step { s with delivered := ds } = afterHistory ds (step (s.withHistory [])) :=
    step_withHistory s ds
  constructor
  · intro t h
    obtain ⟨u, hu, rfl⟩ := afterHistory_eq_next (hown.symm.trans h)
    exact ⟨u.delivered, rfl, by rw [hother, hu, afterHistory]; rfl⟩
  · intro x h
    have hx := afterHistory_eq_refused (hown.symm.trans h)
    rw [hother, hx, afterHistory]

/-- Settles O41: by the reset values of the two lists. -/
theorem resetLeavesNoRequestAndNoResponse : Obligations.ResetLeavesNoRequestAndNoResponse :=
  ⟨State.reset_pending, State.reset_delivered⟩

/-- Settles O49: the placed word is in service and no reset comes first, so the step runs its command. -/
theorem placedWordRunsNext : Obligations.PlacedWordRunsNext := by
  unfold Obligations.PlacedWordRunsNext
  intro s w i hw hd
  obtain ⟨p, hs, hcmd⟩ := inService_withFetchWord s 32 w
  rw [Nat.mod_eq_of_lt hw] at hcmd
  exact ⟨(step_of_noResetNext (noResetNext_withFetchWord s 32 w) hs).1 i (hcmd ▸ hd), p, hs, hcmd⟩

end Sys2Proof.Machine
end

section
/-!
SUPPORT. Which request a turn has in service (log 5, log 6), said of the turn that stands first, and the step of a
turn that resets during a request.
-/

namespace Sys2Proof.Machine

/-- A turn that serves a client, or resets during a request of it, names that client. -/
theorem turnClient_of_turn {s : State} {c : Nat}
    (h : s.turns.head? = some (.serve c) ∨ s.turns.head? = some (.resetDuring c)) : s.turnClient = some c := by
  rcases h with h | h <;> obtain ⟨ts, hts⟩ := List.head?_eq_some_iff.mp h <;> simp [State.turnClient, hts]

/-- A turn of a client that has a request puts the oldest request of that client in service. -/
theorem inService_of_waiting {s : State} {c : Nat} (hc : s.turnClient = some c)
    (h : ∃ x ∈ s.pending, x.client = c) : ∃ p, s.inService = some p ∧ p.client = c := by
  rw [State.inService, State.serviceIdx, hc]
  exact pickIdx_of_waiting h

/-- Place 0 holds the oldest request of all. -/
theorem inService_of_serviceIdx_eq_zero {s : State} (h : s.serviceIdx = 0) : s.inService = s.pending.head? := by
  rw [State.inService, h, List.head?_eq_getElem?]

theorem serviceIdx_of_not_waiting {s : State} {c : Nat} (hc : s.turnClient = some c)
    (h : ∀ x ∈ s.pending, x.client ≠ c) : s.serviceIdx = 0 := by
  rw [State.serviceIdx, hc, pickIdx_of_not_waiting h]

theorem serviceIdx_of_turns_eq_nil {s : State} (h : s.turns = []) : s.serviceIdx = 0 := by
  simp [State.serviceIdx, State.turnClient, h, pickIdx]

/-- Some request is in service when one waits. -/
theorem exists_inService {s : State} (h : s.pending ≠ []) : ∃ p, s.inService = some p :=
  Option.ne_none_iff_exists'.mp (mt (inService_eq_none_iff s).mp h)

/-- Reset during a request ends that request without a response, whatever its word. -/
theorem step_of_resetDuring {s : State} {d : Nat} (h : s.turns.head? = some (.resetDuring d)) :
    step s = .next s.retire := by
  simp [step, h]

end Sys2Proof.Machine
end

section
/-!
SUPPORT. A client's account, what it has received and is still owed, through each thing a step can do to the
ports: an answer moves the head of what is owed to the end of what is received, and a reset drops that head
(20_memory.md R50; 70_reset_and_hazards.md R200).
-/

namespace Sys2Proof.Machine

/-- The request in service is the next one whose verdict its client is owed. -/
theorem verdictsFor_of_inService {s : State} {p : Presented} (hs : s.inService = some p) (c : Nat) :
    verdictsFor c s.pending =
      (if p.client = c then [respond p.request] else []) ++ verdictsFor c s.retire.pending := by
  obtain ⟨before, after, hsplit, hbefore, herase⟩ := inService_split hs
  rw [State.retire_pending, herase, hsplit, verdictsFor_split c hbefore]

@[simp] theorem accountOf_passTurn (c : Nat) (s : State) : accountOf c s.passTurn = accountOf c s := rfl

theorem accountOf_retire (c : Nat) (s : State) :
    accountOf c s.retire = (receivedBy c s.delivered).map Except.ok ++ verdictsFor c s.retire.pending := rfl

/-- The account of the client in service, with the verdict that is due now. -/
theorem accountOf_of_inService {s : State} {p : Presented} (hs : s.inService = some p) :
    accountOf p.client s = (receivedBy p.client s.delivered).map Except.ok ++
      respond p.request :: verdictsFor p.client s.retire.pending := by
  rw [accountOf, verdictsFor_of_inService hs, if_pos rfl, List.singleton_append]

/-- A request that leaves the port without a response is no loss to another client. -/
theorem accountOf_retire_of_ne {s : State} {p : Presented} (hs : s.inService = some p) {c : Nat}
    (hc : c ≠ p.client) : accountOf c s.retire = accountOf c s := by
  rw [accountOf_retire, accountOf, verdictsFor_of_inService hs c, if_neg hc.symm, List.nil_append]

/-- Where no request waits, none is lost. -/
theorem accountOf_retire_of_none {s : State} (hs : s.inService = none) (c : Nat) :
    accountOf c s.retire = accountOf c s := by
  rw [accountOf_retire, accountOf, State.retire_pending, (inService_eq_none_iff s).mp hs, List.eraseIdx_nil]

/-- A request that leaves the port without a response adds nothing to any account and reorders none. -/
theorem accountOf_retire_sublist (c : Nat) (s : State) : (accountOf c s.retire).Sublist (accountOf c s) := by
  have hpending : s.retire.pending.Sublist s.pending := List.eraseIdx_sublist s.pending s.serviceIdx
  exact ((hpending.filter _).map _).append_left _

/-- An answer that the request gets alone leaves every account as it was. -/
theorem accountOf_deliver {s : State} {p : Presented} {r : Response} (hs : s.inService = some p)
    (hr : respond p.request = .ok r) (c : Nat) : accountOf c (s.deliver p.client r) = accountOf c s := by
  have hpending : (s.deliver p.client r).pending = s.retire.pending := rfl
  rw [accountOf, accountOf, hpending, verdictsFor_of_inService hs c, State.deliver_delivered,
    receivedBy_concat, hr]
  by_cases hc : p.client = c <;> simp [hc]

/-- A step keeps every account, or it is a reset during a request and the request in service leaves the port. -/
theorem step_account_cases {s t : State} (h : step s = .next t) :
    (∀ c, accountOf c t = accountOf c s) ∨
    ((∃ d, s.turns.head? = some (.resetDuring d)) ∧ t = s.retire) := by
  rcases step_cases h with ⟨-, rfl⟩ | ⟨d, hd, rfl⟩ | ⟨-, rfl⟩ | ⟨p, i, hs, hdec, he⟩
  · exact .inl fun c => accountOf_passTurn c s
  · exact .inr ⟨⟨d, hd⟩, rfl⟩
  · exact .inl fun c => accountOf_passTurn c s
  · obtain ⟨p', r, hs', hcall, rfl⟩ := (exec_next_iff i s t).mp he
    obtain rfl : p = p' := Option.some.inj (hs.symm.trans hs')
    exact .inl (accountOf_deliver hs (respond_of_decode_ok hdec hcall))

/-- No step adds to an account or reorders it. -/
theorem step_accountOf_sublist {s t : State} (h : step s = .next t) (c : Nat) :
    (accountOf c t).Sublist (accountOf c s) := by
  rcases step_account_cases h with hkeep | ⟨-, rfl⟩
  · rw [hkeep c]
  · exact accountOf_retire_sublist c s

/-- Where nothing has been answered, a client's account is the verdicts of its requests. -/
theorem accountOf_start (c : Nat) (ps : List Presented) (ts : List Turn) :
    accountOf c { pending := ps, turns := ts, delivered := [] } = verdictsFor c ps := rfl

/-- Where no request waits, a client's account is what it has received. -/
theorem accountOf_of_pending_eq_nil {s : State} (h : s.pending = []) (c : Nat) :
    accountOf c s = (receivedBy c s.delivered).map Except.ok := by
  simp [accountOf, verdictsFor, h]

end Sys2Proof.Machine
end

section
/-! SUPPORT. A run without resets whose waiting requests all spell operations. -/

namespace Sys2Proof.Machine

/-- No reset stands in the state, and every request that waits gets a response. -/
structure State.Answerable (s : State) : Prop where
  noReset : s.noReset
  legal : ∀ p ∈ s.pending, ∃ r, respond p.request = .ok r

theorem State.Answerable.deliver {s : State} (h : s.Answerable) (c : Nat) (r : Response) :
    (s.deliver c r).Answerable :=
  ⟨fun t ht => h.noReset t (List.mem_of_mem_tail ht), fun p hp => h.legal p (List.mem_of_mem_eraseIdx hp)⟩

/-- A step of such a run answers one request and keeps every account. -/
theorem step_of_answerable {s : State} (h : s.Answerable) (hp : s.pending ≠ []) :
    ∃ t, step s = .next t ∧ t.Answerable ∧ t.pending.length + 1 = s.pending.length ∧
      ∀ c, accountOf c t = accountOf c s := by
  obtain ⟨p, hs⟩ := exists_inService hp
  obtain ⟨r, hr⟩ := h.legal p (mem_pending_of_inService hs)
  exact ⟨s.deliver p.client r, step_of_respond_ok h.noReset.next hs hr, h.deliver p.client r,
    length_retire_pending hp, accountOf_deliver hs hr⟩

/-- As many steps as there are requests answer them all and keep every account. -/
theorem run_of_answerable (n : Nat) {s : State} (h : s.Answerable) (hn : s.pending.length = n) :
    ∃ t, Host.Core.run Sys2Proof.core n s = .next t ∧ t.pending = [] ∧
      ∀ c, accountOf c t = accountOf c s := by
  induction n generalizing s with
  | zero => exact ⟨s, run_zero s, List.length_eq_zero_iff.mp hn, fun _ => rfl⟩
  | succ n ih =>
    have hp : s.pending ≠ [] := List.ne_nil_of_length_eq_add_one hn
    obtain ⟨u, hstep, hu, hlen, hkeep⟩ := step_of_answerable h hp
    obtain ⟨t, hrun, hnil, hkeep'⟩ := ih hu (by omega)
    exact ⟨t, (run_of_next hstep n).trans hrun, hnil, fun c => (hkeep' c).trans (hkeep c)⟩

end Sys2Proof.Machine
end

section
/-! CLAIMS. The statements of 20_memory.md, settled. -/

namespace Sys2Proof.Machine

/-- Settles O45: a step keeps every account, or is a reset turn, which drops the head of what one client is
owed; in both cases the new account is a sublist of the old one. -/
theorem everyStepKeepsTheRunInvariant : Obligations.EveryStepKeepsTheRunInvariant := by
  unfold Obligations.EveryStepKeepsTheRunInvariant
  intro s t h
  refine ⟨fun ps hinv c => (step_accountOf_sublist h c).trans (hinv c), fun hno => ?_, fun d hd => ?_⟩
  · rcases step_account_cases h with hkeep | ⟨⟨d, hd⟩, -⟩
    · exact hkeep
    · exact absurd hd (hno d)
  · obtain rfl : s.retire = t := by simpa [step_of_resetDuring hd] using h
    exact ⟨accountOf_retire_of_none, fun p hs => ⟨fun c hc => accountOf_retire_of_ne hs hc,
      verdictsFor p.client s.retire.pending, accountOf_of_inService hs, accountOf_retire p.client s⟩⟩

/-- Settles O40: the turn names the client whose oldest request is picked, and place 0 is picked otherwise. -/
theorem turnServesTheOldestRequestOfItsClient : Obligations.TurnServesTheOldestRequestOfItsClient := by
  unfold Obligations.TurnServesTheOldestRequestOfItsClient
  intro s
  refine ⟨fun c hturn hwait => ?_, fun c hturn hnone => ?_, fun hnil => ?_⟩
  · obtain ⟨p, hs, rfl⟩ := inService_of_waiting (turnClient_of_turn hturn) hwait
    obtain ⟨before, after, hsplit, hbefore, -⟩ := inService_split hs
    exact ⟨before, p, after, hs, rfl, hsplit, hbefore⟩
  · exact inService_of_serviceIdx_eq_zero (serviceIdx_of_not_waiting (turnClient_of_turn hturn) hnone)
  · exact inService_of_serviceIdx_eq_zero (serviceIdx_of_turns_eq_nil hnil)

/-- Settles O46: the run keeps every account, which at its end is what the client has received. -/
theorem everyClientReceivesItsOwnResponses : Obligations.EveryClientReceivesItsOwnResponses := by
  unfold Obligations.EveryClientReceivesItsOwnResponses
  intro s hno hlegal
  obtain ⟨t, hrun, hnil, hkeep⟩ := run_of_answerable s.pending.length ⟨hno, hlegal⟩ rfl
  refine ⟨t, hrun, hnil, fun c => ?_⟩
  rw [← accountOf_of_pending_eq_nil hnil c, hkeep c, accountOf]

/-- Settles O8: by the bits and the value of `byteAt`; byte 0 is the quotient by 2^120, which is below 256. -/
theorem recordIsBigEndian : Obligations.RecordIsBigEndian := by
  unfold Obligations.RecordIsBigEndian
  have hbit (r : Record) (k : BitVec 4) (j : Nat) (hj : j < 8) :
      (byteAt r k).getLsbD j = r.getLsbD (120 - 8 * k.toNat + j) := by
    rw [getLsbD_byteAt, decide_eq_true hj, Bool.true_and]
  refine ⟨hbit, fun r => ⟨?_, hbit r 0 7 (by decide)⟩⟩
  have hplace : 120 - 8 * (0 : BitVec 4).toNat = 120 := rfl
  have hbyte : r.toNat / 2 ^ 120 < 256 := by
    have := r.isLt
    omega
  rw [byteAt_toNat, hplace, Nat.mod_eq_of_lt hbyte]

/-- Settles O44: at the start each account is the verdicts of its client's requests. -/
theorem runInvariantHoldsAtTheStart : Obligations.RunInvariantHoldsAtTheStart := by
  unfold Obligations.RunInvariantHoldsAtTheStart
  have hstart (ps : List Presented) (ts : List Turn) :
      RunInv ps { pending := ps, turns := ts, delivered := [] } := fun c => by
    rw [accountOf_start]
  exact ⟨hstart, hstart [] []⟩

end Sys2Proof.Machine
end

section
/-!
SUPPORT. A command word as its fields (30_encoding.md R66): the place of each by division, and the word as their
weighted sum, so that a word is known by its fields.
-/

namespace Sys2Proof

theorem cmdOp_toNat (w : CmdWord) : (cmdOp w).toNat = w.toNat % 16 := by simp [cmdOp]

theorem cmdIdx_toNat (w : CmdWord) : (cmdIdx w).toNat = w.toNat / 2 ^ 4 % 16 := by
  simp [cmdIdx, Nat.shiftRight_eq_div_pow]

theorem cmdB_toNat (w : CmdWord) : (cmdB w).toNat = w.toNat / 2 ^ 8 % 128 := by
  simp [cmdB, Nat.shiftRight_eq_div_pow]

theorem cmdRsv1_toNat (w : CmdWord) : (cmdRsv1 w).toNat = w.toNat / 2 ^ 15 % 2 := by
  simp [cmdRsv1, Nat.shiftRight_eq_div_pow]

theorem cmdN_toNat (w : CmdWord) : (cmdN w).toNat = w.toNat / 2 ^ 16 % 128 := by
  simp [cmdN, Nat.shiftRight_eq_div_pow]

theorem cmdRsv2_toNat (w : CmdWord) : (cmdRsv2 w).toNat = w.toNat / 2 ^ 23 := by
  have hw : w.toNat / 2 ^ 23 < 512 := by have := w.isLt; omega
  simpa [cmdRsv2, Nat.shiftRight_eq_div_pow] using hw

/-- The six fields cover the word. -/
theorem cmdWord_toNat (w : CmdWord) :
    w.toNat = (cmdOp w).toNat + 2 ^ 4 * (cmdIdx w).toNat + 2 ^ 8 * (cmdB w).toNat +
      2 ^ 15 * (cmdRsv1 w).toNat + 2 ^ 16 * (cmdN w).toNat + 2 ^ 23 * (cmdRsv2 w).toNat := by
  rw [cmdOp_toNat, cmdIdx_toNat, cmdB_toNat, cmdRsv1_toNat, cmdN_toNat, cmdRsv2_toNat]
  omega

/-- A word is known by its fields. -/
theorem cmdWord_ext_iff (w w' : CmdWord) :
    w = w' ↔ cmdOp w = cmdOp w' ∧ cmdIdx w = cmdIdx w' ∧ cmdB w = cmdB w' ∧ cmdRsv1 w = cmdRsv1 w' ∧
      cmdN w = cmdN w' ∧ cmdRsv2 w = cmdRsv2 w' := by
  constructor
  · rintro rfl
    simp
  · rintro ⟨hop, hidx, hb, hrsv1, hn, hrsv2⟩
    apply BitVec.eq_of_toNat_eq
    rw [cmdWord_toNat w, cmdWord_toNat w', hop, hidx, hb, hrsv1, hn, hrsv2]

end Sys2Proof
end

section
/-!
SUPPORT. The fields a command spells (30_encoding.md R68: a field that its operation does not use is 0), and the one
word that spells it, its encoded word.
-/

namespace Sys2Proof

/-- The `IDX` field of a command's word. -/
def Instr.idxField : Instr → BitVec 4
  | .recByte idx => idx
  | _ => 0

/-- The `B` field of a command's word. -/
def Instr.bField : Instr → BitVec 7
  | .readBits b _ => b
  | _ => 0

/-- The `N` field of a command's word. -/
def Instr.nField : Instr → BitVec 7
  | .readBits _ n => n
  | _ => 0

/-- The fields of a word are those of a command, and its reserved fields are 0. -/
structure Spells (w : CmdWord) (i : Instr) : Prop where
  op : cmdOp w = i.op
  idx : cmdIdx w = i.idxField
  b : cmdB w = i.bField
  rsv1 : cmdRsv1 w = 0
  n : cmdN w = i.nField
  rsv2 : cmdRsv2 w = 0

theorem spells_iff (w : CmdWord) (i : Instr) :
    Spells w i ↔ cmdOp w = i.op ∧ cmdIdx w = i.idxField ∧ cmdB w = i.bField ∧ cmdRsv1 w = 0 ∧
      cmdN w = i.nField ∧ cmdRsv2 w = 0 :=
  ⟨fun ⟨hop, hidx, hb, hrsv1, hn, hrsv2⟩ => ⟨hop, hidx, hb, hrsv1, hn, hrsv2⟩,
    fun ⟨hop, hidx, hb, hrsv1, hn, hrsv2⟩ => ⟨hop, hidx, hb, hrsv1, hn, hrsv2⟩⟩

/-- The word that spells a command, as a number (30_encoding.md R74, column "command word"). -/
theorem Spells.toNat_eq {w : CmdWord} {i : Instr} (h : Spells w i) :
    w.toNat = i.op.toNat + 2 ^ 4 * i.idxField.toNat + 2 ^ 8 * i.bField.toNat + 2 ^ 16 * i.nField.toNat := by
  rw [cmdWord_toNat w, h.op, h.idx, h.b, h.rsv1, h.n, h.rsv2]
  simp

/-- Only one word spells a command. -/
theorem Spells.unique {w w' : CmdWord} {i : Instr} (h : Spells w i) (h' : Spells w' i) : w = w' :=
  BitVec.eq_of_toNat_eq (h.toNat_eq.trans h'.toNat_eq.symm)

theorem opField_encode (i : Instr) : Laws.OpField.Statement i := by
  cases i with
  | recFromBytes => exact Laws.OpField.recFromBytes
  | recToBytes => exact Laws.OpField.recToBytes
  | recByte idx => exact Laws.OpField.recByte idx
  | recEq => exact Laws.OpField.recEq
  | getFlag => exact Laws.OpField.getFlag
  | getFileBoffset => exact Laws.OpField.getFileBoffset
  | getFsbIndex => exact Laws.OpField.getFsbIndex
  | getFsbCount => exact Laws.OpField.getFsbCount
  | readBits b n => exact Laws.OpField.readBits b n

/-- The three operand fields of an encoded word. -/
theorem operandFields_encode (i : Instr) :
    cmdIdx (encode i) = i.idxField ∧ cmdB (encode i) = i.bField ∧ cmdN (encode i) = i.nField := by
  cases i with
  | recByte idx => revert idx; decide
  | readBits b n =>
    refine ⟨?_, ?_, ?_⟩ <;> apply BitVec.eq_of_getLsbD_eq <;> intro j hj <;>
      interval_cases j <;> simp [cmdIdx, cmdB, cmdN, encode, Instr.idxField, Instr.bField, Instr.nField]
  | _ => decide

theorem spells_encode (i : Instr) : Spells (encode i) i := by
  obtain ⟨hop, hrsv1, hrsv2⟩ := opField_encode i
  obtain ⟨hidx, hb, hn⟩ := operandFields_encode i
  exact ⟨hop, hidx, hb, hrsv1, hn, hrsv2⟩

theorem spells_iff_encode_eq (w : CmdWord) (i : Instr) : Spells w i ↔ encode i = w :=
  ⟨fun h => (spells_encode i).unique h, fun h => h ▸ spells_encode i⟩

end Sys2Proof
end

section
/-!
SUPPORT. The decoder (30_encoding.md R73): its answer after each of its checks, and the words it accepts, which are
the encoded words of the well-formed commands.
-/

namespace Sys2Proof

/-- The operation codes that stand for no operation. -/
theorem instrOfFields_eq_none {op : BitVec 4} (h : 9 ≤ op.toNat) (idx : BitVec 4) (b n : BitVec 7) :
    instrOfFields op idx b n = none := by
  unfold instrOfFields
  split
  case h_10 => rfl
  all_goals omega

/-- Every other code stands for an operation. -/
theorem exists_instrOfFields {op : BitVec 4} (h : op.toNat < 9) (idx : BitVec 4) (b n : BitVec 7) :
    ∃ i, instrOfFields op idx b n = some i := by
  unfold instrOfFields
  interval_cases op.toNat <;> exact ⟨_, rfl⟩

/-- A command carries the word's own operation code, and the fields its operation uses. -/
theorem fields_of_instrOfFields {op idx : BitVec 4} {b n : BitVec 7} {i : Instr}
    (h : instrOfFields op idx b n = some i) :
    op = i.op ∧ i.idxField = (if op = 0x2 then idx else 0) ∧
      i.bField = (if op = 0x8 then b else 0) ∧ i.nField = (if op = 0x8 then n else 0) := by
  have hop {k : Nat} (hk : op.toNat = k) : op = BitVec.ofNat 4 k := by simp [← hk]
  unfold instrOfFields at h
  split at h
  case h_10 => cases h
  all_goals
    next hk =>
    obtain rfl := hop hk
    cases h
    exact ⟨rfl, rfl, rfl, rfl⟩

theorem instrOfFields_of_spells {w : CmdWord} {i : Instr} (h : Spells w i) :
    instrOfFields (cmdOp w) (cmdIdx w) (cmdB w) (cmdN w) = some i := by
  rw [h.op, h.idx, h.b, h.n]
  cases i <;> rfl

/-- The first check: an operation code of 9 or more. -/
theorem decode_of_op_ge {w : CmdWord} (h : 9 ≤ (cmdOp w).toNat) : decode w = .error .reservedOp := by
  simp [decode, instrOfFields_eq_none h]

/-- The other checks, for a code that stands for an operation. -/
theorem decode_of_instrOfFields {w : CmdWord} {i : Instr}
    (h : instrOfFields (cmdOp w) (cmdIdx w) (cmdB w) (cmdN w) = some i) :
    decode w =
      if cmdRsv1 w ≠ 0 ∨ cmdRsv2 w ≠ 0 then .error .reservedBits
      else if cmdOp w ≠ 0x2 ∧ cmdIdx w ≠ 0 then .error .reservedBits
      else if cmdOp w ≠ 0x8 ∧ (cmdB w ≠ 0 ∨ cmdN w ≠ 0) then .error .reservedBits
      else if cmdOp w = 0x8 ∧ (64 < (cmdN w).toNat ∨ 128 < (cmdB w).toNat + (cmdN w).toNat) then
        .error .fieldRange
      else .ok i := by
  rw [decode, h]

/-- A word that spells a command is refused only for an illegal READ_BITS field. -/
theorem decode_of_spells {w : CmdWord} {i : Instr} (h : Spells w i) :
    decode w = if i.wf = true then .ok i else .error .fieldRange := by
  rw [decode_of_instrOfFields (instrOfFields_of_spells h), h.op, h.idx, h.b, h.rsv1, h.n, h.rsv2]
  cases i with
  | readBits b n =>
    have hrange : 64 < n.toNat ∨ 128 < b.toNat + n.toNat ↔ ¬ (Instr.readBits b n).wf = true := by
      simp only [Instr.wf, Bool.and_eq_true, decide_eq_true_eq]
      omega
    cases hwf : (Instr.readBits b n).wf <;>
      simp [Instr.op, Instr.idxField, Instr.bField, Instr.nField, hrange, hwf]
  | _ => simp [Instr.op, Instr.idxField, Instr.bField, Instr.nField, Instr.wf]

/-- An accepted word spells the command it decodes to: every field that the command does not use was checked. -/
theorem spells_of_decode {w : CmdWord} {i : Instr} (h : decode w = .ok i) : Spells w i := by
  obtain ⟨hfields, ⟨hrsv1, hrsv2⟩, hidx, hbn, -⟩ := Machine.decode_ok_cases h
  obtain ⟨hop, hi, hb, hn⟩ := fields_of_instrOfFields hfields
  exact ⟨hop, (hi.trans (ite_eq_left_iff.mpr fun hne => (hidx.resolve_left hne).symm)).symm,
    (hb.trans (ite_eq_left_iff.mpr fun hne => (hbn.resolve_left hne).1.symm)).symm, hrsv1,
    (hn.trans (ite_eq_left_iff.mpr fun hne => (hbn.resolve_left hne).2.symm)).symm, hrsv2⟩

/-- The decoder accepts exactly the encoded words of the well-formed commands. -/
theorem decode_eq_ok_iff (w : CmdWord) (i : Instr) : decode w = .ok i ↔ encode i = w ∧ i.wf = true := by
  constructor
  · intro h
    have hspells := spells_of_decode h
    refine ⟨(spells_iff_encode_eq w i).mp hspells, ?_⟩
    by_contra hwf
    rw [decode_of_spells hspells, if_neg hwf] at h
    cases h
  · rintro ⟨rfl, hwf⟩
    rw [decode_of_spells (spells_encode i), if_pos hwf]

end Sys2Proof
end

section
/-!
SUPPORT. The rows of the opcode table (spec/opcode_table.json): a row's test is a test of each field of the word, and
the words of a row spell its commands, those with an illegal READ_BITS field among them.
-/

namespace Sys2Proof

/-- A row's test, field by field. -/
theorem matches_iff_fields (row : OpcodeRow) (w : CmdWord) :
    row.matches w = true ↔
      cmdOp w &&& cmdOp row.mask = cmdOp row.value ∧ cmdIdx w &&& cmdIdx row.mask = cmdIdx row.value ∧
      cmdB w &&& cmdB row.mask = cmdB row.value ∧ cmdRsv1 w &&& cmdRsv1 row.mask = cmdRsv1 row.value ∧
      cmdN w &&& cmdN row.mask = cmdN row.value ∧ cmdRsv2 w &&& cmdRsv2 row.mask = cmdRsv2 row.value := by
  have hand (a b : CmdWord) : cmdOp (a &&& b) = cmdOp a &&& cmdOp b ∧ cmdIdx (a &&& b) = cmdIdx a &&& cmdIdx b ∧
      cmdB (a &&& b) = cmdB a &&& cmdB b ∧ cmdRsv1 (a &&& b) = cmdRsv1 a &&& cmdRsv1 b ∧
      cmdN (a &&& b) = cmdN a &&& cmdN b ∧ cmdRsv2 (a &&& b) = cmdRsv2 a &&& cmdRsv2 b := by
    simp [cmdOp, cmdIdx, cmdB, cmdRsv1, cmdN, cmdRsv2, BitVec.extractLsb'_and]
  rw [OpcodeRow.matches, beq_iff_eq, cmdWord_ext_iff]
  simp only [hand]

/-- The command of the same row that carries the word's own fields. -/
def Instr.withFieldsOf (w : CmdWord) : Instr → Instr
  | .recByte _ => .recByte (cmdIdx w)
  | .readBits _ _ => .readBits (cmdB w) (cmdN w)
  | i => i

theorem tableRow_withFieldsOf (w : CmdWord) (i : Instr) : tableRow (i.withFieldsOf w) = tableRow i := by
  cases i <;> rfl

theorem op_withFieldsOf (w : CmdWord) (i : Instr) : (i.withFieldsOf w).op = i.op := by
  cases i <;> rfl

theorem withFieldsOf_encode (i : Instr) : i.withFieldsOf (encode i) = i := by
  obtain ⟨hidx, hb, hn⟩ := operandFields_encode i
  cases i with
  | recByte idx => rw [Instr.withFieldsOf, hidx, Instr.idxField]
  | readBits b n => rw [Instr.withFieldsOf, hb, hn, Instr.bField, Instr.nField]
  | _ => rfl

/-- The bits of the `IDX` field that a row's mask tests: none where the operation uses the field. -/
def Instr.idxMask : Instr → BitVec 4
  | .recByte _ => 0
  | _ => BitVec.allOnes 4

/-- The bits of the `B` field, and of the `N` field, that a row's mask tests: none where the operation uses them. -/
def Instr.rangeMask : Instr → BitVec 7
  | .readBits _ _ => 0
  | _ => BitVec.allOnes 7

theorem mask_fields (i : Instr) :
    cmdOp (tableRow i).mask = BitVec.allOnes 4 ∧ cmdIdx (tableRow i).mask = i.idxMask ∧
    cmdB (tableRow i).mask = i.rangeMask ∧ cmdRsv1 (tableRow i).mask = BitVec.allOnes 1 ∧
    cmdN (tableRow i).mask = i.rangeMask ∧ cmdRsv2 (tableRow i).mask = BitVec.allOnes 9 := by
  cases i <;> simp only [tableRow, Instr.idxMask, Instr.rangeMask] <;> decide

theorem value_fields (i : Instr) :
    cmdOp (tableRow i).value = i.op ∧ cmdIdx (tableRow i).value = 0 ∧ cmdB (tableRow i).value = 0 ∧
    cmdRsv1 (tableRow i).value = 0 ∧ cmdN (tableRow i).value = 0 ∧ cmdRsv2 (tableRow i).value = 0 := by
  cases i <;> simp only [tableRow, Instr.op] <;> decide

/-- The words of a command's row are those that spell a command of the row. -/
theorem matches_iff_spells (i : Instr) (w : CmdWord) :
    (tableRow i).matches w = true ↔ Spells w (i.withFieldsOf w) := by
  rw [matches_iff_fields, spells_iff, op_withFieldsOf]
  simp only [mask_fields i, value_fields i, BitVec.and_allOnes]
  cases i <;>
    simp [-BitVec.reduceAllOnes, Instr.idxMask, Instr.rangeMask, Instr.withFieldsOf,
      Instr.idxField, Instr.bField, Instr.nField]

theorem matches_encode (i : Instr) : (tableRow i).matches (encode i) = true := by
  rw [matches_iff_spells, withFieldsOf_encode]
  exact spells_encode i

/-- Only READ_BITS can be ill formed. -/
theorem op_eq_of_not_wf {i : Instr} (h : ¬ i.wf = true) : i.op = 8 := by
  cases i with
  | readBits b n => rfl
  | _ => exact absurd rfl h

end Sys2Proof
end

section
/-! CLAIMS. The statements of 30_encoding.md about command words, settled. -/

namespace Sys2Proof

/-- Settles O1: the encoded word of a command spells it, so only an illegal READ_BITS field could refuse it. -/
theorem decodeOfEncodeIsTheCommand : Obligations.DecodeOfEncodeIsTheCommand := by
  unfold Obligations.DecodeOfEncodeIsTheCommand
  intro i hwf
  exact (decode_eq_ok_iff (encode i) i).mpr ⟨rfl, hwf⟩

/-- Settles O2: an accepted word spells its command, and only one word does. -/
theorem encodeOfDecodeIsTheWord : Obligations.EncodeOfDecodeIsTheWord := by
  unfold Obligations.EncodeOfDecodeIsTheWord
  intro w i h
  exact (decode_eq_ok_iff w i).mp h

/-- Settles O3: the decoder's checks are those of the statement, its fields read as numbers; what it accepts carries
the word's own fields. -/
theorem verdictOfEveryCommandWord : Obligations.VerdictOfEveryCommandWord := by
  unfold Obligations.VerdictOfEveryCommandWord
  intro w
  simp only [← cmdOp_toNat, ← cmdIdx_toNat, ← cmdB_toNat, ← cmdRsv1_toNat, ← cmdN_toNat, ← cmdRsv2_toNat]
  by_cases hop : 9 ≤ (cmdOp w).toNat
  · rw [if_pos hop]
    exact decode_of_op_ge hop
  · obtain ⟨i, hfields⟩ := exists_instrOfFields (not_le.mp hop) (cmdIdx w) (cmdB w) (cmdN w)
    have hdec := decode_of_instrOfFields hfields
    simp only [← BitVec.toNat_inj, BitVec.ofNat_eq_ofNat, BitVec.toNat_ofNat, Nat.zero_mod, Nat.reducePow,
      Nat.reduceMod, ne_eq] at hdec ⊢
    rw [if_neg hop, hdec]
    split_ifs
    case neg =>
      obtain ⟨hi, hidx, hb, hn⟩ := fields_of_instrOfFields hfields
      refine ⟨i, rfl, by rw [hi], ?_, ?_⟩
      · rintro k rfl
        rw [show cmdOp w = 0x2 from hi, if_pos rfl] at hidx
        rw [← hidx, Instr.idxField]
      · rintro b' n' rfl
        rw [show cmdOp w = 0x8 from hi, if_pos rfl] at hb hn
        rw [← hb, ← hn, Instr.bField, Instr.nField]
        exact ⟨rfl, rfl⟩
    all_goals rfl

/-- Settles O4: a word of a row spells a command of the row, and is refused only where that command is ill formed. -/
theorem decodeAgreesWithOpcodeTable : Obligations.DecodeAgreesWithOpcodeTable := by
  unfold Obligations.DecodeAgreesWithOpcodeTable
  intro w i
  constructor
  · intro h
    obtain ⟨rfl, -⟩ := (decode_eq_ok_iff w i).mp h
    exact matches_encode i
  · intro h
    have hdec := decode_of_spells ((matches_iff_spells i w).mp h)
    split at hdec
    case isTrue => exact .inl ⟨i.withFieldsOf w, hdec, tableRow_withFieldsOf w i⟩
    case isFalse hwf => exact .inr ⟨op_withFieldsOf w i ▸ op_eq_of_not_wf hwf, hdec⟩

/-- Settles O5: the encoded word of a command is the weighted sum of the fields that the command spells. -/
theorem commandWordOfEveryForm : Obligations.CommandWordOfEveryForm := by
  unfold Obligations.CommandWordOfEveryForm
  have hword (i : Instr) := (spells_encode i).toNat_eq
  refine ⟨rfl, rfl, fun idx => ?_, rfl, rfl, rfl, rfl, rfl, fun b n => ?_⟩
  · rw [hword]
    simp [Instr.op, Instr.idxField, Instr.bField, Instr.nField]
    omega
  · rw [hword]
    simp [Instr.op, Instr.idxField, Instr.bField, Instr.nField]
    omega

/-- Settles O6: the seven words are decoded as they stand. -/
theorem writtenOutWordsDecode : Obligations.WrittenOutWordsDecode := by
  unfold Obligations.WrittenOutWordsDecode
  decide

end Sys2Proof
end

section
/-!
SUPPORT. The record layout (30_encoding.md R60 to R62): the field that holds a record bit, and a byte as the bits of
the one field, or the two neighbouring fields, that it touches.
-/

namespace Sys2Proof.Machine

/-- The field that holds a record bit. -/
def Field.ofBit (i : Nat) : Field :=
  if i < 21 then .blockCount
  else if i < 73 then .startingBlockNumber
  else if i < 127 then .fileBlockOffset
  else .flag

theorem Field.ofBit_holds {i : Nat} (h : i < 128) : (Field.ofBit i).lo ≤ i ∧ i ≤ (Field.ofBit i).hi := by
  unfold Field.ofBit
  split_ifs <;> simp only [Field.lo, Field.hi] <;> omega

/-- A record bit lies in no other field. -/
theorem Field.eq_ofBit {g : Field} {i : Nat} (hlo : g.lo ≤ i) (hhi : i ≤ g.hi) : g = Field.ofBit i := by
  cases g with
  | flag =>
    have hi : i = 127 := le_antisymm hhi hlo
    rw [hi]
    rfl
  | fileBlockOffset =>
    simp only [Field.lo, Field.hi] at hlo hhi
    rw [Field.ofBit, if_neg (by omega), if_neg (by omega), if_pos (by omega)]
  | startingBlockNumber =>
    simp only [Field.lo, Field.hi] at hlo hhi
    rw [Field.ofBit, if_neg (by omega), if_pos (by omega)]
  | blockCount =>
    simp only [Field.hi] at hhi
    rw [Field.ofBit, if_pos (by omega)]

theorem Field.extractLsb'_value (f : Field) (r : Record) {start len : Nat} (h : start + len ≤ f.width) :
    (f.value r).extractLsb' start len = r.extractLsb' (f.lo + start) len := by
  ext i hi
  simp [Field.value, Nat.add_assoc]
  omega

/-- A byte that lies inside one field. -/
theorem byteAt_of_field (f : Field) (r : Record) {k : BitVec 4} {start : Nat} (hwidth : start + 8 ≤ f.width)
    (hplace : f.lo + start = 120 - 8 * k.toNat) : byteAt r k = (f.value r).extractLsb' start 8 := by
  rw [f.extractLsb'_value r hwidth, hplace, byteAt]

/-- A byte that holds the lowest bits of one field above the highest bits of the next. -/
theorem byteBits_of_fields (f g : Field) (r : Record) (k : BitVec 4) (m n start : Nat) (hm : m ≤ f.width)
    (hwidth : start + n = g.width) (hnext : f.lo = g.lo + g.width) (hplace : g.lo + start = 120 - 8 * k.toNat) :
    r.extractLsb' (120 - 8 * k.toNat) (m + n) = (f.value r).extractLsb' 0 m ++ (g.value r).extractLsb' start n := by
  rw [f.extractLsb'_value r (by omega), g.extractLsb'_value r (by omega),
    BitVec.extractLsb'_append_extractLsb'_eq_extractLsb' (by omega), hplace]

end Sys2Proof.Machine
end

section
/-! CLAIMS. The statements of 30_encoding.md about the record format, settled. -/

namespace Sys2Proof.Machine

/-- Settles O7: the ranges follow one another without a gap, so `Field.ofBit` names the one field of a bit. -/
theorem fieldsPartitionTheRecord : Obligations.FieldsPartitionTheRecord := by
  unfold Obligations.FieldsPartitionTheRecord
  refine ⟨⟨rfl, rfl, rfl⟩, ⟨rfl, rfl, rfl⟩, ⟨rfl, rfl, rfl⟩, ⟨rfl, rfl, rfl⟩, rfl, fun i hi => ?_⟩
  obtain ⟨hlo, hhi⟩ := Field.ofBit_holds hi
  exact ⟨Field.ofBit i, hlo, hhi, fun g => Field.eq_ofBit⟩

/-- Settles O9: thirteen bytes lie inside one field, and bytes 0, 6 and 13 hold the border between two. -/
theorem perByteLayoutOfARecord : Obligations.PerByteLayoutOfARecord := by
  unfold Obligations.PerByteLayoutOfARecord
  intro r F O S C
  have hflag : F.extractLsb' 0 1 = F := BitVec.extractLsb'_eq_self
  have hO (k : BitVec 4) (start : Nat) (hwidth : start + 8 ≤ 54) (hplace : 73 + start = 120 - 8 * k.toNat) :
      byteAt r k = O.extractLsb' start 8 := byteAt_of_field .fileBlockOffset r hwidth hplace
  have hS (k : BitVec 4) (start : Nat) (hwidth : start + 8 ≤ 52) (hplace : 21 + start = 120 - 8 * k.toNat) :
      byteAt r k = S.extractLsb' start 8 := byteAt_of_field .startingBlockNumber r hwidth hplace
  have hC (k : BitVec 4) (start : Nat) (hwidth : start + 8 ≤ 21) (hplace : 0 + start = 120 - 8 * k.toNat) :
      byteAt r k = C.extractLsb' start 8 := byteAt_of_field .blockCount r hwidth hplace
  have h0 : byteAt r 0 = F.extractLsb' 0 1 ++ O.extractLsb' 47 7 :=
    byteBits_of_fields .flag .fileBlockOffset r 0 1 7 47 (by decide) rfl rfl rfl
  have h6 : byteAt r 6 = O.extractLsb' 0 7 ++ S.extractLsb' 51 1 :=
    byteBits_of_fields .fileBlockOffset .startingBlockNumber r 6 7 1 51 (by decide) rfl rfl rfl
  have h13 : byteAt r 13 = S.extractLsb' 0 3 ++ C.extractLsb' 16 5 :=
    byteBits_of_fields .startingBlockNumber .blockCount r 13 3 5 16 (by decide) rfl rfl rfl
  rw [hflag] at h0
  exact ⟨h0, hO 1 39 (by decide) rfl, hO 2 31 (by decide) rfl, hO 3 23 (by decide) rfl,
    hO 4 15 (by decide) rfl, hO 5 7 (by decide) rfl, h6, hS 7 43 (by decide) rfl, hS 8 35 (by decide) rfl,
    hS 9 27 (by decide) rfl, hS 10 19 (by decide) rfl, hS 11 11 (by decide) rfl, hS 12 3 (by decide) rfl, h13,
    hC 14 8 (by decide) rfl, hC 15 0 (by decide) rfl⟩

end Sys2Proof.Machine
end

section
/-!
SUPPORT. How wide the value of each operation is (20_memory.md R47; 42_extent_unpacker.md R148): an accumulator grows
by the bits shifted in, and the result bus adds zeros only.
-/

namespace Sys2Proof.Machine

theorem zextBus_toNat_lt {w : Nat} {v : BitVec w} {n : Nat} (h : v.toNat < 2 ^ n) : (zextBus v).toNat < 2 ^ n := by
  rw [zextBus, BitVec.toNat_setWidth]
  exact (Nat.mod_le _ _).trans_lt h

/-- Shifting `s` bits into an accumulator of `n` bits. -/
theorem shiftIn_toNat_lt {acc x : Accum} {n s : Nat} (hacc : acc.toNat < 2 ^ n) (hx : x.toNat < 2 ^ s) :
    ((acc <<< s) ||| x).toNat < 2 ^ (n + s) := by
  have hshift : acc.toNat <<< s < 2 ^ (n + s) := by
    rw [Nat.shiftLeft_eq, Nat.pow_add]
    exact Nat.mul_lt_mul_of_pos_right hacc (Nat.two_pow_pos s)
  rw [BitVec.toNat_or, BitVec.toNat_shiftLeft]
  exact Nat.or_lt_two_pow ((Nat.mod_le _ _).trans_lt hshift)
    (hx.trans_le (Nat.pow_le_pow_right (by decide) (Nat.le_add_left s n)))

theorem shiftInByte_toNat_lt (r : Record) {acc : Accum} (k : BitVec 4) {n : Nat} (h : acc.toNat < 2 ^ n) :
    (shiftInByte r acc k).toNat < 2 ^ (n + 8) := by
  refine shiftIn_toNat_lt h ?_
  rw [BitVec.toNat_setWidth]
  exact (Nat.mod_le _ _).trans_lt (byteAt r k).isLt

theorem shiftInBytes_toNat_lt (r : Record) (ks : List (BitVec 4)) {acc : Accum} {n : Nat} (h : acc.toNat < 2 ^ n) :
    (ks.foldl (shiftInByte r) acc).toNat < 2 ^ (n + 8 * ks.length) := by
  induction ks generalizing acc n with
  | nil => exact h
  | cons k ks ih =>
    have hrest := ih (shiftInByte_toNat_lt r k h)
    rwa [List.foldl_cons, List.length_cons, show n + 8 * (ks.length + 1) = n + 8 + 8 * ks.length by omega]

theorem shiftInTopBits_toNat_lt (r : Record) {acc : Accum} (k : BitVec 4) {n s : Nat} (hs : s ≤ 8)
    (h : acc.toNat < 2 ^ n) : (shiftInTopBits r acc k s).toNat < 2 ^ (n + s) := by
  have htop : (byteAt r k >>> (8 - s)).toNat < 2 ^ s := by
    rw [BitVec.toNat_ushiftRight, Nat.shiftRight_eq_div_pow, Nat.div_lt_iff_lt_mul (Nat.two_pow_pos _),
      ← Nat.pow_add, Nat.add_sub_cancel' hs]
    exact (byteAt r k).isLt
  refine shiftIn_toNat_lt h ?_
  rw [BitVec.toNat_setWidth]
  exact (Nat.mod_le _ _).trans_lt htop

/-- The first byte of an accessor, cut to its low `n` bits. -/
theorem lowBits_toNat_lt (b : Byte) {m : Byte} {n : Nat} (h : m.toNat < 2 ^ n) :
    ((b &&& m).setWidth 64).toNat < 2 ^ n := by
  rw [BitVec.toNat_setWidth, BitVec.toNat_and]
  exact (Nat.mod_le _ _).trans_lt (Nat.and_le_right.trans_lt h)

theorem getFlagValue_toNat_lt (r : Record) : (getFlagValue r).toNat < 2 ^ 1 := by
  have := (byteAt r 0).isLt
  rw [getFlagValue, BitVec.toNat_ushiftRight, Nat.shiftRight_eq_div_pow]
  omega

theorem getFileBoffsetValue_toNat_lt (r : Record) : (getFileBoffsetValue r).toNat < 2 ^ 54 := by
  have hhead : ((byteAt r 0 &&& 0x7F).setWidth 64).toNat < 2 ^ 7 := lowBits_toNat_lt _ (by decide)
  exact shiftInTopBits_toNat_lt r 6 (by decide) (shiftInBytes_toNat_lt r [1, 2, 3, 4, 5] hhead)

theorem getFsbIndexValue_toNat_lt (r : Record) : (getFsbIndexValue r).toNat < 2 ^ 52 := by
  have hhead : ((byteAt r 6 &&& 0x01).setWidth 64).toNat < 2 ^ 1 := lowBits_toNat_lt _ (by decide)
  exact shiftInTopBits_toNat_lt r 13 (by decide) (shiftInBytes_toNat_lt r [7, 8, 9, 10, 11, 12] hhead)

theorem getFsbCountValue_toNat_lt (r : Record) : (getFsbCountValue r).toNat < 2 ^ 21 := by
  have hhead : ((byteAt r 13 &&& 0x1F).setWidth 64).toNat < 2 ^ 5 := lowBits_toNat_lt _ (by decide)
  rw [getFsbCountValue]
  exact shiftInBytes_toNat_lt r [14, 15] hhead

theorem readBitsValue_toNat_lt (a : Record) (b n : BitVec 7) : (readBitsValue a b n).toNat < 2 ^ n.toNat := by
  unfold readBitsValue
  split
  · exact Nat.two_pow_pos _
  · exact zextBus_toNat_lt (BitVec.isLt _)

/-- An OK response fits the natural width of its operation. -/
theorem response_toNat_lt {i : Instr} {q : Request} {v : Bus} (h : (callOf i q).response = some (.ok v)) :
    v.toNat < 2 ^ resultWidth i := by
  cases i with
  | recFromBytes => exact v.isLt
  | recToBytes => exact v.isLt
  | recByte idx => cases h; exact zextBus_toNat_lt (BitVec.isLt _)
  | recEq => cases h; exact zextBus_toNat_lt (BitVec.isLt _)
  | getFlag => cases h; exact zextBus_toNat_lt (getFlagValue_toNat_lt _)
  | getFileBoffset => cases h; exact zextBus_toNat_lt (getFileBoffsetValue_toNat_lt _)
  | getFsbIndex => cases h; exact zextBus_toNat_lt (getFsbIndexValue_toNat_lt _)
  | getFsbCount => cases h; exact zextBus_toNat_lt (getFsbCountValue_toNat_lt _)
  | readBits b n =>
    rw [callOf, Call.response] at h
    split at h
    · cases h; exact readBitsValue_toNat_lt _ b n
    · cases h

/-- What a meaning delivers is the response of its typed request. -/
theorem response_of_exec {i : Instr} {s : State} {p : Presented} {r : Response} (hs : s.inService = some p)
    (h : exec i s = .next (s.deliver p.client r)) : (callOf i p.request).response = some r := by
  obtain ⟨p', r', hs', hr, heq⟩ := (exec_next_iff i s _).mp h
  obtain rfl : p = p' := Option.some.inj (hs.symm.trans hs')
  obtain rfl : r = r' := by simpa using congrArg State.delivered heq
  exact hr

end Sys2Proof.Machine
end

section
/-! SUPPORT. The host of an assembler line when no other request waits (log 15). -/

namespace Sys2Proof.Machine

/-- When the line's request is the only one, its response is the only one given, and no request is left. -/
theorem awaitResponse_alone {c : Nat} {q : Request} {r : Response} (hr : respond q = .ok r) (fuel : Nat) (s : State)
    (hp : s.pending = [⟨c, q⟩]) (hfuel : s.turns.length + s.pending.length ≤ fuel) :
    ∃ t, awaitResponse c q fuel s = .ok (t, r) ∧ t.pending = [] ∧ t.delivered = s.delivered ++ [⟨c, r⟩] := by
  induction fuel generalizing s with
  | zero => simp [hp] at hfuel
  | succ fuel ih =>
    have hne : s.pending ≠ [] := by simp [hp]
    cases h : step s with
    | fault f => exact absurd h (step_ne_fault s f)
    | refused x =>
      obtain ⟨e, -, p, hmem, he⟩ := refused_request_of_step h
      obtain rfl : p = ⟨c, q⟩ := by simpa [hp] using hmem
      cases hr.symm.trans he
    | next t =>
      have hmeasure := step_measure h hne
      rcases step_waiting_cases h hne with rfl | ⟨p, hs, hleft⟩
      · rw [awaitResponse_of_waiting h (by simp [State.waiting, hp])]
        exact ih s.passTurn hp (by omega)
      · obtain rfl : p = ⟨c, q⟩ := by simpa [hp] using mem_pending_of_inService hs
        have hgone : s.retire.pending = [] := by
          have hlen := length_retire_pending hne
          rwa [hp, List.length_singleton, Nat.add_eq_right, List.length_eq_zero_iff] at hlen
        have hw : s.retire.waiting c = 0 := by rw [State.waiting, hgone, List.countP_nil]
        rcases hleft with ⟨hturns, rfl⟩ | ⟨r', hr', rfl⟩
        · rw [awaitResponse_of_lost h hw (State.retire_delivered s)]
          refine ih (s.retire.present c q) (by rw [State.present_pending, hgone, List.nil_append]) ?_
          have hturn := List.length_pos_iff.mpr hturns
          simp only [State.present_turns, State.present_pending, State.retire_turns, hgone,
            List.length_tail, List.nil_append, List.length_singleton]
          rw [hp, List.length_singleton] at hfuel
          omega
        · obtain rfl : r = r' := Except.ok.inj (hr.symm.trans hr')
          exact ⟨s.deliver c r, awaitResponse_of_answer h hw (State.deliver_delivered s c r) q fuel, hgone, rfl⟩

end Sys2Proof.Machine
end

section
/-! CLAIMS. The statements of 30_encoding.md about results, steps and assembler lines, settled. -/

namespace Sys2Proof.Machine

/-- Settles O31: what a meaning delivers is the response of its typed request, which fits. -/
theorem resultsFitTheirNaturalWidth : Obligations.ResultsFitTheirNaturalWidth := by
  unfold Obligations.ResultsFitTheirNaturalWidth
  intro i s p v hs h
  exact response_toNat_lt (response_of_exec hs h)

/-- Settles O50: with no other request waiting the line's own response is the only one given, and its own word the
only one that can be refused. -/
theorem assemblerLineReceivesItsResponse : Obligations.AssemblerLineReceivesItsResponse := by
  unfold Obligations.AssemblerLineReceivesItsResponse
  intro c line s vars q hp hq
  constructor
  · intro r hr
    obtain ⟨t, hwait, hnil, hd⟩ := awaitResponse_alone (c := c) hr (s.turns.length + s.pending.length + 1)
      (s.present c q) (by simp [hp]) (by simp [hp])
    exact ⟨t, by simp [runLine, hq, hwait], hnil, hd⟩
  · intro e he
    rcases runLine_cases hq c s with ⟨t, r, -, hr, -⟩ | ⟨e', hrun, he' | ⟨p, hmem, -⟩⟩
    · cases hr.symm.trans he
    · obtain rfl : e = e' := Except.error.inj (he.symm.trans he')
      exact hrun
    · simp [hp] at hmem

/-- Settles O33: a turn that serves runs the decoded command. -/
theorem stepRunsTheDecodedCommand : Obligations.StepRunsTheDecodedCommand := by
  unfold Obligations.StepRunsTheDecodedCommand
  intro s p i hn hs hd
  exact (step_of_noResetNext hn hs).1 i hd

end Sys2Proof.Machine
end

section
/-!
SUPPORT. A record and the sequence of its bytes (20_memory.md R40 to R44): reading one byte of either, that bytes
determine the record, and that `concatBytes` and `recordBytes` are inverse to each other on 16 bytes.
-/

namespace Sys2Proof.Machine

/-- Every bit of a record is a bit of one of its bytes (20_memory.md R42). -/
theorem getLsbD_eq_getLsbD_byteAt (r : Record) {i : Nat} (hi : i < 128) :
    r.getLsbD i = (byteAt r (BitVec.ofNat 4 (15 - i / 8))).getLsbD (i % 8) := by
  have hk : (BitVec.ofNat 4 (15 - i / 8)).toNat = 15 - i / 8 := by
    rw [BitVec.toNat_ofNat]
    omega
  have hplace : 120 - 8 * (15 - i / 8) + i % 8 = i := by omega
  have hbit : i % 8 < 8 := Nat.mod_lt i (by decide)
  rw [getLsbD_byteAt, hk, hplace, decide_eq_true hbit, Bool.true_and]

/-- A record is determined by its 16 bytes. -/
theorem forall_byteAt_eq_iff (a b : Record) : (∀ k : BitVec 4, byteAt a k = byteAt b k) ↔ a = b := by
  constructor
  · intro h
    refine BitVec.eq_of_getLsbD_eq fun i hi => ?_
    rw [getLsbD_eq_getLsbD_byteAt a hi, getLsbD_eq_getLsbD_byteAt b hi, h]
  · rintro rfl k
    rfl

/-- The byte by byte comparison decides equality of records. -/
theorem bytewiseEq_iff (a b : Record) : bytewiseEq a b = true ↔ a = b := by
  rw [← forall_byteAt_eq_iff]
  simp [bytewiseEq, mem_byteIndices]

theorem byteIndices_getElem? (k : BitVec 4) : byteIndices[k.toNat]? = some k := by
  revert k; decide

theorem recordBytes_getElem? (r : Record) (k : BitVec 4) : (recordBytes r)[k.toNat]? = some (byteAt r k) := by
  rw [recordBytes, List.getElem?_map, byteIndices_getElem?, Option.map_some]

/-- Byte k of a record built from 16 bytes is element k of the sequence. -/
theorem getElem?_eq_byteAt_concatBytes {bs : List Byte} (h : bs.length = 16) (k : BitVec 4) :
    bs[k.toNat]? = some (byteAt (concatBytes bs) k) := by
  have hk : k.toNat < bs.length := h ▸ k.isLt
  rw [List.getElem?_eq_getElem hk]
  refine congrArg some (BitVec.eq_of_getLsbD_eq fun j hj => ?_)
  have hbyte : (120 - 8 * k.toNat + j) / 8 = bs.length - 1 - k.toNat := by omega
  have hbit : (120 - 8 * k.toNat + j) % 8 = j := by omega
  have hback : bs.length - 1 - (bs.length - 1 - k.toNat) = k.toNat := by omega
  rw [getLsbD_byteAt, decide_eq_true hj, Bool.true_and, getLsbD_concatBytes bs _ (by omega), hbyte, hbit,
    List.getElem?_reverse (by omega), hback, List.getElem?_eq_getElem hk, Option.getD_some]

theorem concatBytes_recordBytes (r : Record) : concatBytes (recordBytes r) = r := by
  refine (forall_byteAt_eq_iff _ _).mp fun k => ?_
  have hbuilt := getElem?_eq_byteAt_concatBytes (recordBytes_length r) k
  exact Option.some.inj (hbuilt.symm.trans (recordBytes_getElem? r k))

theorem recordBytes_concatBytes {bs : List Byte} (h : bs.length = 16) : recordBytes (concatBytes bs) = bs := by
  have hlen : (recordBytes (concatBytes bs)).length = bs.length := by rw [recordBytes_length, h]
  refine List.ext_getElem? fun i => ?_
  by_cases hi : i < 16
  · have hk : (BitVec.ofNat 4 i).toNat = i := by rw [BitVec.toNat_ofNat]; omega
    rw [← hk, recordBytes_getElem?, getElem?_eq_byteAt_concatBytes h]
  · rw [List.getElem?_eq_none (by omega), List.getElem?_eq_none (by omega)]

end Sys2Proof.Machine
end

section
/-! SUPPORT. The responses of the operations of 40_raw_record.md, case by case. -/

namespace Sys2Proof.Machine

theorem recFromBytesResponse_of_length {bs : List Byte} (h : bs.length = 16) :
    recFromBytesResponse bs = .ok (concatBytes bs) :=
  if_neg (not_not_intro h)

theorem recFromBytesResponse_of_length_ne {bs : List Byte} (h : bs.length ≠ 16) :
    recFromBytesResponse bs = .err .invalidLength :=
  if_pos h

theorem recEqResponse_of_eq {a b : Record} (h : a = b) : recEqResponse a b = .ok 1 := by
  rw [recEqResponse, if_pos ((bytewiseEq_iff a b).mpr h)]
  rfl

theorem recEqResponse_of_ne {a b : Record} (h : a ≠ b) : recEqResponse a b = .ok 0 := by
  rw [recEqResponse, if_neg (mt (bytewiseEq_iff a b).mp h)]
  rfl

theorem zextBus_toNat {w : Nat} (h : w ≤ 128) (v : BitVec w) : (zextBus v).toNat = v.toNat :=
  BitVec.toNat_setWidth_of_le h

/-- A line whose byte index does not fit its field makes no request (92_eei_decisions.md D15). -/
theorem assemble_recByte_of_le (vars : List HostVar) (a : RecordRef) {idx : Nat} (h : 16 ≤ idx) :
    (AsmOp.recByte a idx).assemble vars = none := by
  have hinstr : (AsmOp.recByte a idx).instr = none := if_neg (not_lt.mpr h)
  rw [AsmOp.assemble, hinstr]

end Sys2Proof.Machine
end

section
/-! CLAIMS. The statements of 40_raw_record.md, settled. -/

namespace Sys2Proof.Machine

/-- Settles O10: on 16 bytes the record is their concatenation, whose byte k is element k. -/
theorem recFromBytesBuildsTheRecord : Obligations.RecFromBytesBuildsTheRecord := by
  unfold Obligations.RecFromBytesBuildsTheRecord
  refine ⟨decodeOfEncodeIsTheCommand .recFromBytes rfl, fun s p hs => ⟨fun hlen => ?_, fun hlen => ?_⟩⟩
  · exact ⟨concatBytes p.request.bytes,
      exec_of_response hs (congrArg some (recFromBytesResponse_of_length hlen)),
      getElem?_eq_byteAt_concatBytes hlen⟩
  · exact exec_of_response hs (congrArg some (recFromBytesResponse_of_length_ne hlen))

/-- Settles O13: the word is the encoded command, the value is that of `byteAt`, and a larger index has no command. -/
theorem recByteReturnsTheByte : Obligations.RecByteReturnsTheByte := by
  unfold Obligations.RecByteReturnsTheByte
  refine ⟨fun k => decodeOfEncodeIsTheCommand (.recByte k) rfl, fun k s p hs => ?_,
    fun vars a idx => assemble_recByte_of_le vars a⟩
  refine ⟨zextBus (byteAt p.request.recA k), exec_of_response hs rfl, ?_⟩
  rw [zextBus_toNat (by decide), byteAt_toNat]

/-- Settles O14: bytes determine the record, so the byte by byte comparison decides equality. -/
theorem recEqComparesBytes : Obligations.RecEqComparesBytes := by
  unfold Obligations.RecEqComparesBytes
  refine ⟨decodeOfEncodeIsTheCommand .recEq rfl, forall_byteAt_eq_iff, fun s p hs => ⟨fun h => ?_, fun h => ?_⟩⟩
  · exact exec_of_response hs (congrArg some (recEqResponse_of_eq h))
  · exact exec_of_response hs (congrArg some (recEqResponse_of_ne h))

/-- Settles O15: `concatBytes` and `recordBytes` undo each other. -/
theorem recordsRoundTripThroughBytes : Obligations.RecordsRoundTripThroughBytes := by
  unfold Obligations.RecordsRoundTripThroughBytes
  refine ⟨fun bs hlen => ?_, fun r => ?_⟩
  · exact ⟨concatBytes bs, recFromBytesResponse_of_length hlen, rfl, recordBytes_concatBytes hlen⟩
  · rw [recFromBytesResponse_of_length (recordBytes_length r), concatBytes_recordBytes]

/-- Settles O12: the record itself is delivered, and element k of its bytes is byte k. -/
theorem recToBytesReturnsTheBytes : Obligations.RecToBytesReturnsTheBytes := by
  unfold Obligations.RecToBytesReturnsTheBytes
  exact ⟨decodeOfEncodeIsTheCommand .recToBytes rfl, fun s p hs =>
    ⟨p.request.recA, exec_of_response hs rfl, rfl, recordBytes_getElem? p.request.recA⟩⟩

end Sys2Proof.Machine
end

section
/-!
SUPPORT. A run of record bits as a number, counted from the most significant bit (00_scope.md R10), at any width: how
runs join and split, and READ_BITS (41_bitfield_decoder.md R120) and the bytes of a record as such runs.
-/

namespace Sys2Proof.Machine

/-- The `m` record bits that start at position `p`, counted from the most significant bit, as a number. The widths of
41_bitfield_decoder.md R122 go past the 64 bits of a READ_BITS field. -/
def slice (a : Record) (p m : Nat) : Nat := (a.extractLsb' (128 - p - m) m).toNat

theorem slice_lt (a : Record) (p m : Nat) : slice a p m < 2 ^ m := BitVec.isLt _

theorem slice_zero (a : Record) (p : Nat) : slice a p 0 = 0 := BitVec.toNat_of_zero_length rfl _

theorem slice_eq_div (a : Record) (p m : Nat) : slice a p m = a.toNat / 2 ^ (128 - p - m) % 2 ^ m := by
  rw [slice, BitVec.extractLsb'_toNat, Nat.shiftRight_eq_div_pow]

theorem testBit_slice (a : Record) (p m j : Nat) :
    (slice a p m).testBit j = (decide (j < m) && a.getLsbD (128 - p - m + j)) := by
  rw [slice, BitVec.testBit_toNat, BitVec.getLsbD_extractLsb']

/-- A run followed by the next one is one longer run. -/
theorem slice_append (a : Record) {p m l : Nat} (h : p + m + l ≤ 128) :
    slice a p m <<< l ||| slice a (p + m) l = slice a p (m + l) := by
  refine Nat.eq_of_testBit_eq fun j => ?_
  simp only [Nat.testBit_or, Nat.testBit_shiftLeft, testBit_slice]
  rcases lt_or_ge j l with hj | hj
  · simp [hj, Nat.not_le.mpr hj, show j < m + l by omega,
      show 128 - (p + m) - l + j = 128 - p - (m + l) + j by omega]
  · simp [hj, Nat.not_lt.mpr hj, show j - l < m ↔ j < m + l by omega,
      show 128 - p - m + (j - l) = 128 - p - (m + l) + j by omega]

/-- A right shift drops the lowest bits of a run. -/
theorem slice_shiftRight (a : Record) {p m l : Nat} (h : p + m + l ≤ 128) :
    slice a p (m + l) >>> l = slice a p m := by
  have hlow : slice a (p + m) l >>> l = 0 := Nat.shiftRight_eq_zero _ _ (slice_lt a (p + m) l)
  rw [← slice_append a h, Nat.shiftRight_or_distrib, Nat.shiftLeft_shiftRight, hlow, Nat.or_zero]

/-- A mask of the lowest bits drops the highest ones. -/
theorem slice_and_mask (a : Record) {p m l : Nat} (h : p + m + l ≤ 128) :
    slice a p (m + l) &&& (2 ^ l - 1) = slice a (p + m) l := by
  have hlow := slice_lt a (p + m) l
  rw [← slice_append a h, ← Nat.shiftLeft_add_eq_or_of_lt hlow, Nat.and_two_pow_sub_one_eq_mod,
    Nat.shiftLeft_eq, Nat.mul_add_mod_self_right, Nat.mod_eq_of_lt hlow]

theorem byteAt_toNat_eq_slice (a : Record) (k : BitVec 4) : (byteAt a k).toNat = slice a (8 * k.toNat) 8 := by
  rw [byteAt_toNat, slice_eq_div, show 128 - 8 * k.toNat - 8 = 120 - 8 * k.toNat by omega]
  rfl

theorem byteAt_ofNat_toNat (a : Record) {k : Nat} (hk : k < 16) :
    (byteAt a (BitVec.ofNat 4 k)).toNat = slice a (8 * k) 8 := by
  rw [byteAt_toNat_eq_slice, BitVec.toNat_ofNat, Nat.mod_eq_of_lt hk]

theorem readBitsValue_toNat (a : Record) (b n : BitVec 7) :
    (readBitsValue a b n).toNat = slice a b.toNat n.toNat := by
  unfold readBitsValue
  split
  · next hn => subst hn; exact (slice_zero a b.toNat).symm
  · rw [zextBus_toNat n.isLt.le, slice]

theorem getLsbD_readBitsValue (a : Record) (b n : BitVec 7) (j : Nat) :
    (readBitsValue a b n).getLsbD j = (decide (j < n.toNat) && a.getLsbD (128 - b.toNat - n.toNat + j)) := by
  rw [← BitVec.testBit_toNat, readBitsValue_toNat, testBit_slice]

theorem readBitsValue_zero (a : Record) (b : BitVec 7) : readBitsValue a b 0 = 0 := if_pos rfl

/-- A field of one bit. -/
theorem readBitsValue_one (a : Record) (b : BitVec 7) :
    readBitsValue a b 1 = (BitVec.ofBool (a.getLsbD (127 - b.toNat))).setWidth 128 := by
  refine BitVec.eq_of_getLsbD_eq fun j hj => ?_
  rw [getLsbD_readBitsValue]
  cases j with
  | zero => simp [Nat.sub_right_comm 128 b.toNat 1]
  | succ j => simp

/-- Bytes 0 to 7. -/
theorem readBitsValue_highHalf (a : Record) : readBitsValue a 0 64 = BitVec.ofNat 128 (a.toNat / 2 ^ 64) := by
  have hlt : a.toNat / 2 ^ 64 < 2 ^ 64 := by have := a.isLt; omega
  apply BitVec.eq_of_toNat_eq
  rw [readBitsValue_toNat, slice_eq_div, BitVec.toNat_ofNat, Nat.mod_eq_of_lt (hlt.trans (by decide))]
  exact Nat.mod_eq_of_lt hlt

/-- Bytes 8 to 15. -/
theorem readBitsValue_lowHalf (a : Record) : readBitsValue a 64 64 = BitVec.ofNat 128 (a.toNat % 2 ^ 64) := by
  have hlt : a.toNat % 2 ^ 64 < 2 ^ 64 := Nat.mod_lt _ (by decide)
  apply BitVec.eq_of_toNat_eq
  rw [readBitsValue_toNat, slice_eq_div, BitVec.toNat_ofNat, Nat.mod_eq_of_lt (hlt.trans (by decide))]
  exact congrArg (· % 2 ^ 64) (Nat.div_one a.toNat)

end Sys2Proof.Machine
end

section
/-! SUPPORT. The meaning of READ_BITS on legal fields and on others (41_bitfield_decoder.md R121). -/

namespace Sys2Proof.Machine

/-- A command READ_BITS is well formed when its field is legal. -/
theorem wf_readBits_iff (b n : BitVec 7) :
    (Instr.readBits b n).wf = true ↔ n.toNat ≤ 64 ∧ b.toNat + n.toNat ≤ 128 := by
  rw [Instr.wf, Bool.and_eq_true, decide_eq_true_eq, decide_eq_true_eq]

/-- The word of a READ_BITS command is refused when its field is not legal. -/
theorem decode_encode_readBits_of_illegal {b n : BitVec 7} (h : ¬ (n.toNat ≤ 64 ∧ b.toNat + n.toNat ≤ 128)) :
    decode (encode (.readBits b n)) = .error .fieldRange := by
  rw [decode_of_spells (spells_encode _), if_neg (mt (wf_readBits_iff b n).mp h)]

theorem exec_readBits_of_legal {b n : BitVec 7} (h : n.toNat ≤ 64 ∧ b.toNat + n.toNat ≤ 128) (s : State) :
    exec (.readBits b n) s = s.respondWith fun q => readBitsResponse q.recA b n :=
  if_pos ((fieldLegal_iff b n).mpr h)

theorem exec_readBits_of_illegal {b n : BitVec 7} (h : ¬ (n.toNat ≤ 64 ∧ b.toNat + n.toNat ≤ 128)) (s : State) :
    exec (.readBits b n) s = .fault .illegalField :=
  if_neg (mt (fieldLegal_iff b n).mp h)

/-- On a legal field the request in service is answered with the slice. -/
theorem exec_readBits_of_inService {s : State} {p : Presented} (hs : s.inService = some p) {b n : BitVec 7}
    (h : n.toNat ≤ 64 ∧ b.toNat + n.toNat ≤ 128) :
    exec (.readBits b n) s = .next (s.deliver p.client (.ok (readBitsValue p.request.recA b n))) := by
  rw [exec_readBits_of_legal h, respondWith_of_inService hs]
  rfl

end Sys2Proof.Machine
end

section
/-!
SUPPORT. The shift-and-accumulate algorithm (41_bitfield_decoder.md R122): its accumulator holds the slice from the
field's first bit to the end of the last byte shifted in. On 64 bits it is the same number modulo `2^64`, since no
left shift and no OR looks at a higher bit.
-/

namespace Sys2Proof.Machine

/-- One turn of R122's loop on unbounded integers: shift left 8, OR in the byte. -/
def appendByte (a : Record) (acc : Nat) (k : BitVec 4) : Nat := (acc <<< 8) ||| (byteAt a k).toNat

/-- The first byte without the bits above the field. -/
theorem head_eq_slice (a : Record) {b : Nat} (hb : b < 128) :
    (byteAt a (BitVec.ofNat 4 (b / 8))).toNat &&& (0xFF >>> (b % 8)) = slice a b (8 * (b / 8 + 1) - b) := by
  have hmask : 0xFF >>> (b % 8) = 2 ^ (8 - b % 8) - 1 := by
    have : b % 8 < 8 := Nat.mod_lt b (by decide)
    interval_cases b % 8 <;> rfl
  have hsplit : 8 = b % 8 + (8 - b % 8) := by omega
  have hplace : 8 * (b / 8) + b % 8 = b := Nat.div_add_mod b 8
  have hwidth : 8 - b % 8 = 8 * (b / 8 + 1) - b := by omega
  calc (byteAt a (BitVec.ofNat 4 (b / 8))).toNat &&& (0xFF >>> (b % 8))
      = slice a (8 * (b / 8)) (b % 8 + (8 - b % 8)) &&& (2 ^ (8 - b % 8) - 1) := by
        rw [byteAt_ofNat_toNat a (by omega), hmask, ← hsplit]
    _ = slice a (8 * (b / 8) + b % 8) (8 - b % 8) := slice_and_mask a (by omega)
    _ = slice a b (8 * (b / 8 + 1) - b) := by rw [hplace, hwidth]

/-- Shifting in the bytes from `first` on lengthens the slice to the end of the last of them. -/
theorem foldl_appendByte_slice (a : Record) {p first count : Nat} (hp : p ≤ 8 * first) (h : first + count ≤ 16) :
    (byteRun first count).foldl (appendByte a) (slice a p (8 * first - p)) =
      slice a p (8 * (first + count) - p) := by
  induction count generalizing first with
  | zero => rfl
  | succ count ih =>
    have hbyte : appendByte a (slice a p (8 * first - p)) (BitVec.ofNat 4 first) =
        slice a p (8 * (first + 1) - p) := by
      have happend := slice_append a (p := p) (m := 8 * first - p) (l := 8) (by omega)
      rw [show p + (8 * first - p) = 8 * first by omega,
        show 8 * first - p + 8 = 8 * (first + 1) - p by omega] at happend
      rw [appendByte, byteAt_ofNat_toNat a (by omega), happend]
    rw [byteRun, List.foldl_cons, hbyte, ih (by omega) (by omega),
      show first + 1 + count = first + (count + 1) by omega]

/-- Before its final shift the accumulator holds the field and the bits of the last byte below it. -/
theorem accumulateWhole_eq_slice (a : Record) {b n : Nat} (hn : 1 ≤ n) (h : b + n ≤ 128) :
    accumulateWhole a b n = slice a b (8 * ((b + n - 1) / 8 + 1) - b) := by
  have hfold := foldl_appendByte_slice a (p := b) (first := b / 8 + 1) (count := (b + n - 1) / 8 - b / 8)
    (by omega) (by omega)
  rw [← head_eq_slice a (by omega),
    show b / 8 + 1 + ((b + n - 1) / 8 - b / 8) = (b + n - 1) / 8 + 1 by omega] at hfold
  exact hfold

theorem readBitsWhole_eq_slice (a : Record) {b n : Nat} (hn : 1 ≤ n) (h : b + n ≤ 128) :
    readBitsWhole a b n = slice a b n := by
  rw [readBitsWhole, accumulateWhole_eq_slice a hn h,
    show 8 * ((b + n - 1) / 8 + 1) - b = n + (8 * ((b + n - 1) / 8 + 1) - (b + n)) by omega]
  exact slice_shiftRight a (by omega)

/-! ### On 64 bits -/

theorem ofNat_shiftLeft (w x l : Nat) : BitVec.ofNat w x <<< l = BitVec.ofNat w (x <<< l) := by
  apply BitVec.eq_of_toNat_eq
  rw [BitVec.toNat_shiftLeft, BitVec.toNat_ofNat, BitVec.toNat_ofNat, Nat.shiftLeft_eq, Nat.shiftLeft_eq,
    Nat.mod_mul_mod]

/-- Shifting a number into a 64-bit accumulator. -/
theorem ofNat_shiftIn (x l : Nat) (y : Byte) :
    (BitVec.ofNat 64 x <<< l) ||| y.setWidth 64 = BitVec.ofNat 64 (x <<< l ||| y.toNat) := by
  rw [ofNat_shiftLeft, ← BitVec.ofNat_toNat, BitVec.ofNat_or]

theorem foldl_shiftInByte_ofNat (a : Record) (ks : List (BitVec 4)) (x : Nat) :
    ks.foldl (shiftInByte a) (BitVec.ofNat 64 x) = BitVec.ofNat 64 (ks.foldl (appendByte a) x) :=
  List.foldl_hom (BitVec.ofNat 64) fun x k => ofNat_shiftIn x 8 (byteAt a k)

/-- The 64-bit form of the first byte without the bits above the field. -/
theorem head64_eq_slice (a : Record) {b : Nat} (hb : b < 128) :
    (byteAt a (BitVec.ofNat 4 (b / 8)) &&& (0xFF#8 >>> (b % 8))).setWidth 64 =
      BitVec.ofNat 64 (slice a b (8 * (b / 8 + 1) - b)) := by
  rw [← head_eq_slice a hb, ← BitVec.ofNat_toNat, BitVec.toNat_and, BitVec.toNat_ushiftRight]
  rfl

/-- The top `8 - t` bits of a byte continue the slice that ends where the byte begins. -/
theorem shiftIn_topBits_slice (a : Record) {p k t : Nat} (hp : p ≤ 8 * k) (hk : k < 16) (ht : t ≤ 8) :
    (BitVec.ofNat 64 (slice a p (8 * k - p)) <<< (8 - t)) |||
        (byteAt a (BitVec.ofNat 4 k) >>> t).setWidth 64 =
      BitVec.ofNat 64 (slice a p (8 * (k + 1) - t - p)) := by
  have htop : slice a (8 * k) 8 >>> t = slice a (8 * k) (8 - t) := by
    have hshift := slice_shiftRight a (p := 8 * k) (m := 8 - t) (l := t) (by omega)
    rwa [Nat.sub_add_cancel ht] at hshift
  have happend := slice_append a (p := p) (m := 8 * k - p) (l := 8 - t) (by omega)
  rw [show p + (8 * k - p) = 8 * k by omega,
    show 8 * k - p + (8 - t) = 8 * (k + 1) - t - p by omega] at happend
  rw [ofNat_shiftIn, BitVec.toNat_ushiftRight, byteAt_ofNat_toNat a hk, htop, happend]

/-- The 64-bit algorithm holds the slice modulo `2^64`, whether the field lies in one byte or ends in a later one. -/
theorem readBits64_eq_slice (a : Record) {b n : Nat} (hn : 1 ≤ n) (h : b + n ≤ 128) :
    readBits64 a b n = BitVec.ofNat 64 (slice a b n) := by
  simp only [readBits64, head64_eq_slice a (show b < 128 by omega)]
  split
  · next hsame =>
    have hfit : slice a b (8 * (b / 8 + 1) - b) < 2 ^ 64 :=
      (slice_lt a b _).trans_le (Nat.pow_le_pow_right (by decide) (by omega))
    have hshift := slice_shiftRight a (p := b) (m := n) (l := 8 * (b / 8 + 1) - (b + n)) (by omega)
    rw [show n + (8 * (b / 8 + 1) - (b + n)) = 8 * (b / 8 + 1) - b by omega] at hshift
    rw [← hsame, ← hshift]
    apply BitVec.eq_of_toNat_eq
    rw [BitVec.toNat_ushiftRight, BitVec.toNat_ofNat, BitVec.toNat_ofNat, Nat.mod_eq_of_lt hfit,
      Nat.mod_eq_of_lt ((Nat.shiftRight_le _ _).trans_lt hfit)]
  · next hlater =>
    have hfold := foldl_appendByte_slice a (p := b) (first := b / 8 + 1)
      (count := (b + n - 1) / 8 - b / 8 - 1) (by omega) (by omega)
    rw [show b / 8 + 1 + ((b + n - 1) / 8 - b / 8 - 1) = (b + n - 1) / 8 by omega] at hfold
    have hacc := foldl_shiftInByte_ofNat a (byteRun (b / 8 + 1) ((b + n - 1) / 8 - b / 8 - 1))
      (slice a b (8 * (b / 8 + 1) - b))
    rw [hfold] at hacc
    have hlast := shiftIn_topBits_slice a (p := b) (k := (b + n - 1) / 8)
      (t := 8 * ((b + n - 1) / 8 + 1) - (b + n)) (by omega) (by omega) (by omega)
    rw [show 8 * ((b + n - 1) / 8 + 1) - (8 * ((b + n - 1) / 8 + 1) - (b + n)) - b = n by omega] at hlast
    rw [← hacc] at hlast
    exact hlast

/-- On a field that fits, the 64-bit algorithm gives the value of READ_BITS. -/
theorem zextBus_readBits64 (a : Record) {b n : BitVec 7} (hn : 1 ≤ n.toNat) (hfit : n.toNat ≤ 64)
    (h : b.toNat + n.toNat ≤ 128) : zextBus (readBits64 a b.toNat n.toNat) = readBitsValue a b n := by
  have hlt : slice a b.toNat n.toNat < 2 ^ 64 := (slice_lt a _ _).trans_le (Nat.pow_le_pow_right (by decide) hfit)
  apply BitVec.eq_of_toNat_eq
  rw [zextBus_toNat (by decide), readBits64_eq_slice a hn h, BitVec.toNat_ofNat, Nat.mod_eq_of_lt hlt,
    readBitsValue_toNat]

end Sys2Proof.Machine
end

section
/-!
SUPPORT. Each accessor as a READ_BITS field (41_bitfield_decoder.md R123): the three that cross bytes are the 64-bit
algorithm of R122 with their constants.
-/

namespace Sys2Proof.Machine

theorem zextBus_getFlagValue (a : Record) : zextBus (getFlagValue a) = readBitsValue a 0 1 := by
  apply BitVec.eq_of_toNat_eq
  rw [zextBus_toNat (by decide), getFlagValue, BitVec.toNat_ushiftRight, byteAt_toNat_eq_slice, readBitsValue_toNat]
  exact slice_shiftRight a (p := 0) (m := 1) (l := 7) (by decide)

theorem zextBus_getFileBoffsetValue (a : Record) : zextBus (getFileBoffsetValue a) = readBitsValue a 1 54 :=
  zextBus_readBits64 a (b := 1) (n := 54) (by decide) (by decide) (by decide)

theorem zextBus_getFsbIndexValue (a : Record) : zextBus (getFsbIndexValue a) = readBitsValue a 55 52 :=
  zextBus_readBits64 a (b := 55) (n := 52) (by decide) (by decide) (by decide)

theorem zextBus_getFsbCountValue (a : Record) : zextBus (getFsbCountValue a) = readBitsValue a 107 21 :=
  zextBus_readBits64 a (b := 107) (n := 21) (by decide) (by decide) (by decide)

/-- An operation that answers every record as a READ_BITS field does is that READ_BITS in every state. -/
theorem exec_eq_exec_readBits {i : Instr} {b n : BitVec 7} {value : Record → Bus}
    (hlegal : n.toNat ≤ 64 ∧ b.toNat + n.toNat ≤ 128)
    (hi : ∀ s : State, exec i s = s.respondWith fun q => respondOK (value q.recA))
    (hvalue : ∀ a, value a = readBitsValue a b n) (s : State) : exec i s = exec (.readBits b n) s := by
  simp only [hi, exec_readBits_of_legal hlegal, hvalue, readBitsResponse]

end Sys2Proof.Machine
end

section
/-! CLAIMS. The statements of 41_bitfield_decoder.md, settled. -/

namespace Sys2Proof.Machine

/-- Settles O16: the word is the encoded command, and the response is the slice as a number. -/
theorem readBitsReturnsTheSlice : Obligations.ReadBitsReturnsTheSlice := by
  unfold Obligations.ReadBitsReturnsTheSlice
  intro b n hn hbn
  refine ⟨decodeOfEncodeIsTheCommand (.readBits b n) ((wf_readBits_iff b n).mpr ⟨hn, hbn⟩), fun s p hs => ?_⟩
  exact ⟨readBitsValue p.request.recA b n, exec_readBits_of_inService hs ⟨hn, hbn⟩,
    (readBitsValue_toNat _ b n).trans (slice_eq_div _ _ _)⟩

/-- Settles O17: a legal field makes its command well formed, and any other is refused and has no meaning. -/
theorem onlyLegalFieldsAreRead : Obligations.OnlyLegalFieldsAreRead := by
  unfold Obligations.OnlyLegalFieldsAreRead
  refine fun b n => ⟨fun hlegal => ⟨?_, fun s p hs => ?_⟩, fun hillegal => ⟨?_, ?_⟩⟩
  · exact decodeOfEncodeIsTheCommand _ ((wf_readBits_iff b n).mpr hlegal)
  · exact ⟨readBitsValue p.request.recA b n, exec_readBits_of_inService hs hlegal,
      (readBitsValue_toNat_lt _ b n).trans_le (Nat.pow_le_pow_right (by decide) hlegal.1)⟩
  · exact decode_encode_readBits_of_illegal hillegal
  · exact exec_readBits_of_illegal hillegal

/-- Settles O18: each legal case by the value of its slice, each refused one by the range check. -/
theorem readBitsCornerCases : Obligations.ReadBitsCornerCases := by
  unfold Obligations.ReadBitsCornerCases
  intro s p hs a
  have hnext {b n : BitVec 7} {v : Bus} (hlegal : n.toNat ≤ 64 ∧ b.toNat + n.toNat ≤ 128)
      (hv : readBitsValue a b n = v) : exec (.readBits b n) s = .next (s.deliver p.client (.ok v)) :=
    hv ▸ exec_readBits_of_inService hs hlegal
  refine ⟨fun b => ?_, fun b => ?_, fun b => ?_, ?_, ?_, fun b n hn hfit hend => ?_, ?_, fun b n hn hfit => ?_,
    fun b n v hv => ?_⟩
  · exact hnext ⟨by decide, b.isLt.le⟩ (readBitsValue_zero a b)
  · exact hnext ⟨by decide, b.isLt⟩ (readBitsValue_one a b)
  · rw [wf_readBits_iff]
    simp
  · exact hnext ⟨by decide, by decide⟩ (readBitsValue_highHalf a)
  · exact hnext ⟨by decide, by decide⟩ (readBitsValue_lowHalf a)
  · refine ⟨readBitsValue a b n, hnext ⟨hfit, hend.le⟩ rfl, ?_⟩
    rw [getLsbD_readBitsValue, decide_eq_true (show 0 < n.toNat by omega), Bool.true_and,
      show 128 - b.toNat - n.toNat + 0 = 0 by omega]
  · exact decode_encode_readBits_of_illegal (by decide)
  · omega
  · exact resultsFitTheirNaturalWidth (.readBits b n) s p v hs hv

/-- Settles O19: each accessor answers every request as its READ_BITS field does. -/
theorem accessorsAreReadBitsInstances : Obligations.AccessorsAreReadBitsInstances := by
  unfold Obligations.AccessorsAreReadBitsInstances
  refine ⟨?_, ?_, ?_, ?_, ?_, ?_, ?_, ?_⟩
  · exact exec_eq_exec_readBits (by decide) (fun _ => rfl) zextBus_getFlagValue
  · exact exec_eq_exec_readBits (by decide) (fun _ => rfl) zextBus_getFileBoffsetValue
  · exact exec_eq_exec_readBits (by decide) (fun _ => rfl) zextBus_getFsbIndexValue
  · exact exec_eq_exec_readBits (by decide) (fun _ => rfl) zextBus_getFsbCountValue
  · exact decodeOfEncodeIsTheCommand (.readBits 0 1) rfl
  · exact decodeOfEncodeIsTheCommand (.readBits 1 54) rfl
  · exact decodeOfEncodeIsTheCommand (.readBits 55 52) rfl
  · exact decodeOfEncodeIsTheCommand (.readBits 107 21) rfl

/-- Settles O20: the accumulator holds the field with the `t` bits below it, and the final shift drops those. -/
theorem shiftAndAccumulateReadsTheSlice : Obligations.ShiftAndAccumulateReadsTheSlice := by
  unfold Obligations.ShiftAndAccumulateReadsTheSlice
  intro a b n hn hfit hbn
  refine ⟨?_, ?_, by omega⟩
  · rw [readBitsWhole_eq_slice a hn hbn, readBitsValue_toNat]
  · rw [accumulateWhole_eq_slice a hn hbn]
    exact (slice_lt a _ _).trans_eq (congrArg (2 ^ ·) (by omega))

/-- Settles O21: the 64-bit accumulator ends as the slice modulo `2^64`, and the slice is below that. -/
theorem sixtyFourBitAccumulateReadsTheSlice : Obligations.SixtyFourBitAccumulateReadsTheSlice := by
  unfold Obligations.SixtyFourBitAccumulateReadsTheSlice
  intro a b n hn hfit hbn
  exact zextBus_readBits64 a hn hfit hbn

end Sys2Proof.Machine
end

section
/-!
SUPPORT. The four accessors as one family over the fields (42_extent_unpacker.md R140 to R144): each answers every
record with its field's slice, zero-extended.
-/

namespace Sys2Proof.Machine

/-- The command that reads a field (42_extent_unpacker.md R140 to R143). -/
def Field.command : Field → Instr
  | .flag => .getFlag
  | .fileBlockOffset => .getFileBoffset
  | .startingBlockNumber => .getFsbIndex
  | .blockCount => .getFsbCount

/-- The response of a field's accessor. -/
def Field.response : Field → Record → Response
  | .flag => getFlagResponse
  | .fileBlockOffset => getFileBoffsetResponse
  | .startingBlockNumber => getFsbIndexResponse
  | .blockCount => getFsbCountResponse

theorem Field.callOf_command_response (f : Field) (q : Request) :
    (callOf f.command q).response = some (f.response q.recA) := by
  cases f <;> rfl

theorem Field.lo_add_width (f : Field) : f.lo + f.width = f.hi + 1 := by cases f <;> rfl

/-- A READ_BITS field in the place of a record field has that field's value. -/
theorem readBitsValue_eq_zextBus_value (f : Field) (r : Record) {b n : BitVec 7} (hn : n.toNat = f.width)
    (hplace : 128 - b.toNat - n.toNat = f.lo) : readBitsValue r b n = zextBus (f.value r) := by
  refine BitVec.eq_of_getLsbD_eq fun j hj => ?_
  rw [getLsbD_readBitsValue, hplace, hn, zextBus, BitVec.getLsbD_setWidth, decide_eq_true hj, Bool.true_and,
    Field.value, BitVec.getLsbD_extractLsb']

/-- Every accessor is total and answers its field (42_extent_unpacker.md R144). -/
theorem Field.response_eq (f : Field) (r : Record) : f.response r = .ok (zextBus (f.value r)) := by
  cases f with
  | flag =>
    exact congrArg Response.ok
      ((zextBus_getFlagValue r).trans (readBitsValue_eq_zextBus_value .flag r rfl rfl))
  | fileBlockOffset =>
    exact congrArg Response.ok
      ((zextBus_getFileBoffsetValue r).trans (readBitsValue_eq_zextBus_value .fileBlockOffset r rfl rfl))
  | startingBlockNumber =>
    exact congrArg Response.ok
      ((zextBus_getFsbIndexValue r).trans (readBitsValue_eq_zextBus_value .startingBlockNumber r rfl rfl))
  | blockCount =>
    exact congrArg Response.ok
      ((zextBus_getFsbCountValue r).trans (readBitsValue_eq_zextBus_value .blockCount r rfl rfl))

theorem Field.exec_command {s : State} {p : Presented} (hs : s.inService = some p) (f : Field) :
    exec f.command s = .next (s.deliver p.client (.ok (zextBus (f.value p.request.recA)))) := by
  refine exec_of_response hs ?_
  rw [f.callOf_command_response, f.response_eq]

/-! ### The value of a field -/

theorem Field.zextBus_value_toNat (f : Field) (r : Record) :
    (zextBus (f.value r)).toNat = r.toNat / 2 ^ f.lo % 2 ^ f.width := by
  rw [zextBus_toNat (by cases f <;> decide), Field.value, BitVec.extractLsb'_toNat, Nat.shiftRight_eq_div_pow]

theorem Field.zextBus_value_toNat_lt (f : Field) (r : Record) : (zextBus (f.value r)).toNat < 2 ^ f.width :=
  zextBus_toNat_lt (f.value r).isLt

theorem Field.getLsbD_zextBus_value (f : Field) (r : Record) {j : Nat} (hj : j < f.width) :
    (zextBus (f.value r)).getLsbD j = r.getLsbD (f.lo + j) := by
  have hbus : j < 128 := hj.trans_le (by cases f <;> decide)
  rw [zextBus, BitVec.getLsbD_setWidth, Field.value, BitVec.getLsbD_extractLsb', decide_eq_true hbus,
    decide_eq_true hj, Bool.true_and, Bool.true_and]

theorem Field.value_flag (r : Record) : Field.value .flag r = BitVec.ofBool (r.getLsbD 127) := by
  refine BitVec.eq_of_getLsbD_eq fun j hj => ?_
  obtain rfl : j = 0 := Nat.lt_one_iff.mp hj
  simp [Field.value, Field.lo, Field.width]

/-- The value of a field depends on the field's own bits only (42_extent_unpacker.md R146). -/
theorem Field.value_eq_of_agree (f : Field) {a a' : Record}
    (h : ∀ i, f.lo ≤ i → i ≤ f.hi → a.getLsbD i = a'.getLsbD i) : f.value a = f.value a' := by
  refine BitVec.eq_of_getLsbD_eq fun j hj => ?_
  have hlast := f.lo_add_width
  rw [Field.value, Field.value, BitVec.getLsbD_extractLsb', BitVec.getLsbD_extractLsb',
    h (f.lo + j) (by omega) (by omega)]

/-! ### The two values of the flag (30_encoding.md R64) -/

theorem ExtentFlag.toBit_ofBit (b : BitVec 1) : (ExtentFlag.ofBit b).toBit = b := by
  revert b; decide

theorem ExtentFlag.ofBit_ofBool_eq_unwritten_iff (b : Bool) :
    ExtentFlag.ofBit (BitVec.ofBool b) = .unwritten ↔ b = true := by
  revert b; decide

theorem ExtentFlag.ofBit_ofBool_eq_normal_iff (b : Bool) :
    ExtentFlag.ofBit (BitVec.ofBool b) = .normal ↔ b = false := by
  revert b; decide

end Sys2Proof.Machine
end

section
/-!
SUPPORT. A record as the OR of its four shifted fields (42_extent_unpacker.md R145): a value that fits its field, moved
to the field's place, has bits there only, and `Field.ofBit` names the one field that a bit of the record comes from.
-/

namespace Sys2Proof.Machine

/-- The right-hand side of the reconstruction law for one value per field. -/
def recordOf (v : Field → Bus) : Record :=
  reconstruct (v .flag) (v .fileBlockOffset) (v .startingBlockNumber) (v .blockCount)

/-- Four field values as a function of the field. -/
def Field.choose (f o s c : Bus) : Field → Bus
  | .flag => f
  | .fileBlockOffset => o
  | .startingBlockNumber => s
  | .blockCount => c

theorem recordOf_choose (f o s c : Bus) : recordOf (Field.choose f o s c) = reconstruct f o s c := rfl

theorem getLsbD_of_toNat_lt {v : Bus} {w j : Nat} (h : v.toNat < 2 ^ w) (hj : w ≤ j) : v.getLsbD j = false := by
  rw [← BitVec.testBit_toNat]
  exact Nat.testBit_lt_two_pow (h.trans_le (Nat.pow_le_pow_right (by decide) hj))

/-- A bit of a shifted field value. -/
theorem Field.getLsbD_shiftLeft_lo (f : Field) {v : Bus} (h : v.toNat < 2 ^ f.width) {i : Nat} (hi : i < 128) :
    (v <<< f.lo).getLsbD i = (decide (f = Field.ofBit i) && v.getLsbD (i - f.lo)) := by
  rw [BitVec.getLsbD_shiftLeft, decide_eq_true hi, Bool.true_and]
  by_cases hf : f = Field.ofBit i
  · have hlo : f.lo ≤ i := hf ▸ (Field.ofBit_holds hi).1
    rw [decide_eq_true hf, decide_eq_false (not_lt.mpr hlo), Bool.not_false]
  · rw [decide_eq_false hf, Bool.false_and]
    rcases lt_or_ge i f.lo with hlo | hlo
    · rw [decide_eq_true hlo, Bool.not_true, Bool.false_and]
    · have hhi : ¬ i ≤ f.hi := fun hhi => hf (Field.eq_ofBit hlo hhi)
      have hlast := f.lo_add_width
      rw [getLsbD_of_toNat_lt h (by omega), Bool.and_false]

/-- The shifted values of two fields have no set bit in common. -/
theorem Field.shiftLeft_lo_and_eq_zero {f g : Field} (hne : f ≠ g) {v w : Bus} (hv : v.toNat < 2 ^ f.width)
    (hw : w.toNat < 2 ^ g.width) : (v <<< f.lo) &&& (w <<< g.lo) = 0 := by
  refine BitVec.eq_of_getLsbD_eq fun i hi => ?_
  rw [BitVec.getLsbD_and, f.getLsbD_shiftLeft_lo hv hi, g.getLsbD_shiftLeft_lo hw hi]
  by_cases hf : f = Field.ofBit i
  · have hg : g ≠ Field.ofBit i := fun hg => hne (hf.trans hg.symm)
    simp [hg]
  · simp [hf]

/-- The block count stands at bit 0, so it is not shifted. -/
theorem Field.shiftLeft_lo_blockCount (c : Bus) : c <<< Field.blockCount.lo = c := BitVec.shiftLeft_zero c

theorem Field.shiftLeft_lo_and_blockCount_eq_zero {f : Field} (hne : f ≠ .blockCount) {v c : Bus}
    (hv : v.toNat < 2 ^ f.width) (hc : c.toNat < 2 ^ 21) : (v <<< f.lo) &&& c = 0 := by
  have hand := Field.shiftLeft_lo_and_eq_zero hne hv (g := .blockCount) hc
  rwa [Field.shiftLeft_lo_blockCount] at hand

/-- Each bit of a reconstructed record comes from the one field that holds it. -/
theorem getLsbD_recordOf {v : Field → Bus} (hv : ∀ g, (v g).toNat < 2 ^ g.width) {i : Nat} (hi : i < 128) :
    (recordOf v).getLsbD i = (v (Field.ofBit i)).getLsbD (i - (Field.ofBit i).lo) := by
  have hterm (g : Field) := g.getLsbD_shiftLeft_lo (hv g) hi
  have hsplit : recordOf v = (v .flag <<< Field.flag.lo) ||| (v .fileBlockOffset <<< Field.fileBlockOffset.lo) |||
      (v .startingBlockNumber <<< Field.startingBlockNumber.lo) ||| (v .blockCount <<< Field.blockCount.lo) := by
    rw [Field.shiftLeft_lo_blockCount]
    rfl
  rw [hsplit, BitVec.getLsbD_or, BitVec.getLsbD_or, BitVec.getLsbD_or, hterm, hterm, hterm, hterm]
  cases Field.ofBit i <;> simp

/-- A record is reconstructed from its own fields. -/
theorem recordOf_value (r : Record) : recordOf (fun g => zextBus (g.value r)) = r := by
  refine BitVec.eq_of_getLsbD_eq fun i hi => ?_
  obtain ⟨hlo, hhi⟩ := Field.ofBit_holds hi
  have hlast := (Field.ofBit i).lo_add_width
  rw [getLsbD_recordOf (fun g => g.zextBus_value_toNat_lt r) hi, Field.getLsbD_zextBus_value _ _ (by omega),
    Nat.add_sub_cancel' hlo]

/-- Field values that fit are the fields of the record they make. -/
theorem Field.zextBus_value_recordOf {v : Field → Bus} (hv : ∀ g, (v g).toNat < 2 ^ g.width) (g : Field) :
    zextBus (g.value (recordOf v)) = v g := by
  refine BitVec.eq_of_getLsbD_eq fun j _ => ?_
  rcases lt_or_ge j g.width with hj | hj
  · have hlast := g.lo_add_width
    have hrecord : g.hi < 128 := by cases g <;> decide
    have hg : g = Field.ofBit (g.lo + j) := Field.eq_ofBit (by omega) (by omega)
    rw [g.getLsbD_zextBus_value _ hj, getLsbD_recordOf hv (by omega), ← hg, Nat.add_sub_cancel_left]
  · rw [getLsbD_of_toNat_lt (g.zextBus_value_toNat_lt _) hj, getLsbD_of_toNat_lt (hv g) hj]

/-- The accessors decode a reconstructed record back to its field values. -/
theorem Field.response_recordOf {v : Field → Bus} (hv : ∀ g, (v g).toNat < 2 ^ g.width) (g : Field) :
    g.response (recordOf v) = .ok (v g) := by
  rw [g.response_eq, g.zextBus_value_recordOf hv]

end Sys2Proof.Machine
end

section
/-! CLAIMS. The statements of 42_extent_unpacker.md, settled. -/

namespace Sys2Proof.Machine

/-- Settles O22: the flag field is bit 127 alone. -/
theorem getFlagReturnsBit127 : Obligations.GetFlagReturnsBit127 := by
  unfold Obligations.GetFlagReturnsBit127
  refine ⟨decodeOfEncodeIsTheCommand .getFlag rfl, fun s p hs => ?_⟩
  have hexec := Field.exec_command hs .flag
  rw [Field.value_flag] at hexec
  refine ⟨fun hset => ?_, fun hclear => ?_⟩
  · rw [hset] at hexec
    exact hexec
  · rw [hclear] at hexec
    exact hexec

/-- Settles O23: the accumulator ends as the slice of the field, whose number is `r / 2 ^ 73 % 2 ^ 54`. -/
theorem getFileBoffsetReturnsBits126To73 : Obligations.GetFileBoffsetReturnsBits126To73 := by
  unfold Obligations.GetFileBoffsetReturnsBits126To73
  exact ⟨decodeOfEncodeIsTheCommand .getFileBoffset rfl, fun s p hs =>
    ⟨_, Field.exec_command hs .fileBlockOffset, Field.zextBus_value_toNat .fileBlockOffset _⟩⟩

/-- Settles O24, as O23, with the field of bits 72 to 21. -/
theorem getFsbIndexReturnsBits72To21 : Obligations.GetFsbIndexReturnsBits72To21 := by
  unfold Obligations.GetFsbIndexReturnsBits72To21
  exact ⟨decodeOfEncodeIsTheCommand .getFsbIndex rfl, fun s p hs =>
    ⟨_, Field.exec_command hs .startingBlockNumber, Field.zextBus_value_toNat .startingBlockNumber _⟩⟩

/-- Settles O25, as O23; the field starts at bit 0, so nothing is divided away. -/
theorem getFsbCountReturnsBits20To0 : Obligations.GetFsbCountReturnsBits20To0 := by
  unfold Obligations.GetFsbCountReturnsBits20To0
  refine ⟨decodeOfEncodeIsTheCommand .getFsbCount rfl, fun s p hs => ?_⟩
  refine ⟨_, Field.exec_command hs .blockCount, (Field.zextBus_value_toNat .blockCount _).trans ?_⟩
  rw [Field.lo, Nat.pow_zero, Nat.div_one]
  rfl

/-- Settles O26: each accessor answers its field, and a bit of the record comes from the one field that holds it. -/
theorem fieldsReconstructTheRecord : Obligations.FieldsReconstructTheRecord := by
  unfold Obligations.FieldsReconstructTheRecord
  refine ⟨fun r => ?_, fun f o st c hf ho hst hc => ?_⟩
  · have hlt (g : Field) := g.zextBus_value_toNat_lt r
    have hand {g g' : Field} (hne : g ≠ g') := Field.shiftLeft_lo_and_eq_zero hne (hlt g) (hlt g')
    have hcount {g : Field} (hne : g ≠ .blockCount) :=
      Field.shiftLeft_lo_and_blockCount_eq_zero hne (hlt g) (hlt .blockCount)
    refine ⟨_, _, _, _, Field.response_eq .flag r, Field.response_eq .fileBlockOffset r,
      Field.response_eq .startingBlockNumber r, Field.response_eq .blockCount r, (recordOf_value r).symm, ?_⟩
    exact ⟨hand (g := .flag) (g' := .fileBlockOffset) (by decide),
      hand (g := .flag) (g' := .startingBlockNumber) (by decide), hcount (g := .flag) (by decide),
      hand (g := .fileBlockOffset) (g' := .startingBlockNumber) (by decide),
      hcount (g := .fileBlockOffset) (by decide), hcount (g := .startingBlockNumber) (by decide)⟩
  · have hfits (g : Field) : (Field.choose f o st c g).toNat < 2 ^ g.width := by
      cases g with
      | flag => exact hf
      | fileBlockOffset => exact ho
      | startingBlockNumber => exact hst
      | blockCount => exact hc
    have hdecode := Field.response_recordOf hfits
    rw [recordOf_choose] at hdecode
    exact ⟨hdecode .flag, hdecode .fileBlockOffset, hdecode .startingBlockNumber, hdecode .blockCount⟩

/-- Settles O27: a response is its field's value, which the field's own bits determine. -/
theorem accessorsReadOnlyTheirField : Obligations.AccessorsReadOnlyTheirField := by
  unfold Obligations.AccessorsReadOnlyTheirField
  intro a a' agree
  have hresponse (f : Field) (h : agree f) : f.response a = f.response a' := by
    rw [f.response_eq, f.response_eq, f.value_eq_of_agree h]
  exact ⟨hresponse .flag, hresponse .fileBlockOffset, hresponse .startingBlockNumber, hresponse .blockCount⟩

/-- Settles O28: the derived view is made of the same fields, and the flag's two values are the two bits. -/
theorem accessorsAnswerTheExtentFields : Obligations.AccessorsAnswerTheExtentFields := by
  unfold Obligations.AccessorsAnswerTheExtentFields
  intro r v
  have hflag : v.flag = ExtentFlag.ofBit (BitVec.ofBool (r.getLsbD 127)) :=
    congrArg ExtentFlag.ofBit (Field.value_flag r)
  refine ⟨?_, ?_, ?_, Field.response_eq .fileBlockOffset r, Field.response_eq .startingBlockNumber r,
    Field.response_eq .blockCount r⟩
  · rw [hflag, ExtentFlag.toBit_ofBit, ← Field.value_flag]
    exact Field.response_eq .flag r
  · rw [hflag, ExtentFlag.ofBit_ofBool_eq_unwritten_iff]
  · rw [hflag, ExtentFlag.ofBit_ofBool_eq_normal_iff]

end Sys2Proof.Machine
end

section
/-!
SUPPORT. Which responses are errors (60_exceptions.md R170, R171): a response is OK with a value or InvalidLength,
and of the nine typed requests only REC_FROM_BYTES with a length other than 16 gets the latter.
-/

namespace Sys2Proof.Machine

/-- InvalidLength is the one error kind, so a response that is not it carries a value. -/
theorem Response.exists_ok_of_ne_invalidLength {r : Response} (h : r ≠ .err .invalidLength) : ∃ v, r = .ok v := by
  match r with
  | .ok v => exact ⟨v, rfl⟩
  | .err .invalidLength => exact absurd rfl h

theorem Response.status_eq_one_iff (r : Response) : r.status = 1 ↔ r = .err .invalidLength := by
  match r with
  | .ok v => simp [Response.status]
  | .err .invalidLength => simp [Response.status]

theorem Response.result?_eq_none_iff (r : Response) : r.result? = none ↔ r = .err .invalidLength := by
  match r with
  | .ok v => simp [Response.result?]
  | .err .invalidLength => simp [Response.result?]

theorem recFromBytesResponse_eq_invalidLength_iff (bs : List Byte) :
    recFromBytesResponse bs = .err .invalidLength ↔ bs.length ≠ 16 := by
  refine ⟨fun h hlen => ?_, recFromBytesResponse_of_length_ne⟩
  rw [recFromBytesResponse_of_length hlen] at h
  cases h

/-- Every command but REC_FROM_BYTES answers OK. -/
theorem response_ne_invalidLength {i : Instr} {q : Request} {r : Response} (hi : i ≠ .recFromBytes)
    (h : (callOf i q).response = some r) : r ≠ .err .invalidLength := by
  rintro rfl
  cases i with
  | recFromBytes => exact hi rfl
  | readBits b n =>
    rw [callOf, Call.response] at h
    split at h <;> cases h
  | _ => cases h

/-- The response of a typed request is InvalidLength exactly for REC_FROM_BYTES with a length other than 16. -/
theorem response_eq_invalidLength_iff {i : Instr} {q : Request} {r : Response}
    (h : (callOf i q).response = some r) :
    r = .err .invalidLength ↔ i = .recFromBytes ∧ q.len ≠ 16 := by
  by_cases hi : i = .recFromBytes
  · subst hi
    obtain rfl : recFromBytesResponse q.bytes = r := Option.some.inj h
    simp [recFromBytesResponse_eq_invalidLength_iff, Request.len]
  · simp [hi, response_ne_invalidLength hi h]

end Sys2Proof.Machine
end

section
/-! SUPPORT. Stops that no run reaches (60_exceptions.md R176), and the step with no request in service (log 4). -/

namespace Sys2Proof.Machine

/-- A meaning that is called with no request in service faults (log 9). -/
theorem exec_faults_of_none {s : State} (hs : s.inService = none) (i : Instr) : ∃ f, exec i s = .fault f := by
  rcases exec_eq_respondWith_or_fault i with ⟨meaning, h⟩ | h
  · exact ⟨.noRequest, (h s).trans (respondWith_of_none hs meaning)⟩
  · exact ⟨.illegalField, h s⟩

/-- No run faults, since no step does. -/
theorem run_ne_fault (k : Nat) (s : State) (f : Fault) : Host.Core.run Sys2Proof.core k s ≠ .fault f := by
  induction k generalizing s with
  | zero => rw [run_zero]; nofun
  | succ k ih =>
    cases h : step s with
    | next t => rw [run_of_next h]; exact ih t
    | fault f' => exact absurd h (step_ne_fault s f')
    | refused x => rw [run_of_refused h]; nofun

/-- With no request in service a step that is no reset only uses up a turn. -/
theorem step_of_none {s : State} (hn : s.noResetNext) (hs : s.inService = none) : step s = .next s.passTurn := by
  cases h : step s with
  | fault f => exact absurd h (step_ne_fault s f)
  | refused x =>
    obtain ⟨p, e, hp, -⟩ := step_refused_cases h
    cases hs.symm.trans hp
  | next t =>
    rcases step_cases h with ⟨-, rfl⟩ | ⟨c, hc, -⟩ | ⟨-, rfl⟩ | ⟨p, i, hp, -⟩
    · rfl
    · obtain ⟨c', hserve⟩ := hn _ hc
      cases hserve
    · rfl
    · cases hs.symm.trans hp

theorem passTurn_of_turns_eq_nil {s : State} (h : s.turns = []) : s.passTurn = s := by
  rw [State.passTurn, h, List.tail_nil, ← h]

end Sys2Proof.Machine
end

section
/-! CLAIMS. The statements of 60_exceptions.md, settled. -/

namespace Sys2Proof.Machine

/-- Settles O11: what a meaning delivers is the response of its typed request, whose one error is that of
REC_FROM_BYTES. -/
theorem invalidLengthExactlyOnOtherLengths : Obligations.InvalidLengthExactlyOnOtherLengths := by
  unfold Obligations.InvalidLengthExactlyOnOtherLengths
  intro i s p r hs h
  exact ⟨response_eq_invalidLength_iff (response_of_exec hs h), r.status_eq_one_iff, r.result?_eq_none_iff⟩

/-- Settles O35: a decoded command has a response, which the step delivers; only that of REC_FROM_BYTES can be an
error. -/
theorem everyRequestHasOneVerdict : Obligations.EveryRequestHasOneVerdict := by
  unfold Obligations.EveryRequestHasOneVerdict
  intro s p hn hs
  have hanswer {i : Instr} {r : Response} (hd : decode p.request.cmd = .ok i)
      (hr : (callOf i p.request).response = some r) : step s = .next (s.deliver p.client r) :=
    step_of_respond_ok hn hs (respond_of_decode_ok hd hr)
  refine ⟨(step_of_noResetNext hn hs).2, fun i hd hi => ?_, fun hd => ?_⟩
  · obtain ⟨r, hr⟩ := response_of_decode hd p.request
    obtain ⟨v, rfl⟩ := Response.exists_ok_of_ne_invalidLength (response_ne_invalidLength hi hr)
    exact ⟨v, hanswer hd hr⟩
  · by_cases hlen : p.request.bytes.length = 16
    · exact .inl ⟨_, hanswer hd (congrArg some (recFromBytesResponse_of_length hlen))⟩
    · exact .inr (hanswer hd (congrArg some (recFromBytesResponse_of_length_ne hlen)))

/-- Settles O36: the decoder hands a step only commands that answer; outside a step a meaning may find no request, or
a field that is not legal. -/
theorem invariantViolationsFaultAndAreUnreachable : Obligations.InvariantViolationsFaultAndAreUnreachable := by
  unfold Obligations.InvariantViolationsFaultAndAreUnreachable
  refine ⟨step_ne_fault, fun i s hs => exec_faults_of_none hs i, fun b n s hwf => ?_⟩
  rw [← Bool.not_eq_true, wf_readBits_iff] at hwf
  exact exec_readBits_of_illegal hwf s

/-- Settles O37, by induction on the length of the run. -/
theorem everyRunIsSafe : Obligations.EveryRunIsSafe := by
  unfold Obligations.EveryRunIsSafe
  exact run_ne_fault

/-- Settles O39: with no request waiting none is in service, so the turn passes, and where none stands nothing
changes. -/
theorem idleStepChangesNothing : Obligations.IdleStepChangesNothing := by
  unfold Obligations.IdleStepChangesNothing
  intro s hn hp
  have hstep : step s = .next s.passTurn := step_of_none hn ((inService_eq_none_iff s).mpr hp)
  exact ⟨⟨s.passTurn, hstep, hp, rfl, rfl⟩, fun hturns => hstep.trans (congrArg _ (passTurn_of_turns_eq_nil hturns))⟩

end Sys2Proof.Machine
end

section
/-!
SUPPORT. The request in service as it leaves the port (70_reset_and_hazards.md R200): which requests still wait, what
a bare reset does, and that serving brings no reset nearer than it stood.
-/

namespace Sys2Proof.Machine

/-- Reset with nothing in progress only uses up the turn. -/
theorem step_of_reset {s : State} (h : s.turns.head? = some .reset) : step s = .next s.passTurn := by
  simp [step, h]

theorem State.noReset.deliver {s : State} (h : s.noReset) (c : Nat) (r : Response) : (s.deliver c r).noReset :=
  fun t ht => h t (List.mem_of_mem_tail ht)

theorem State.deliver_eq (s : State) (c : Nat) (r : Response) :
    s.deliver c r = ⟨s.retire.pending, s.turns.tail, s.delivered ++ [⟨c, r⟩]⟩ := rfl

/-- A waiting request is the one in service, or it still waits when that one has left the port. -/
theorem eq_or_mem_retire_of_inService {s : State} {p x : Presented} (hs : s.inService = some p)
    (hx : x ∈ s.pending) : x = p ∨ x ∈ s.retire.pending := by
  obtain ⟨before, after, hsplit, -, herase⟩ := inService_split hs
  rw [State.retire_pending, herase]
  rw [hsplit] at hx
  simpa [or_left_comm] using hx

/-- When all waiting requests are of one client, the first of them is in service, and leaves the rest. -/
theorem inService_of_one_client {s : State} {p : Presented} {rest : List Presented}
    (hpending : s.pending = p :: rest) (hclient : ∀ x ∈ rest, x.client = p.client) :
    s.inService = some p ∧ s.retire.pending = rest := by
  obtain ⟨p', hs⟩ := exists_inService (hpending ▸ List.cons_ne_nil p rest)
  obtain ⟨before, after, hsplit, hbefore, herase⟩ := inService_split hs
  rw [hpending] at hsplit
  cases before with
  | nil => cases hsplit; exact ⟨hs, herase⟩
  | cons b bs =>
    cases hsplit
    have hsame : p.client = p'.client := (hclient p' (by simp)).symm
    exact absurd hsame (hbefore p List.mem_cons_self)

end Sys2Proof.Machine
end

section
/-!
SUPPORT. Runs of a client that is alone on the port, and runs in which a refused request waits
(70_reset_and_hazards.md R205).
-/

namespace Sys2Proof.Machine

/-- The state in which the requests of one client wait and no other client's does. -/
def State.ofClient (c : Nat) (qs : List Request) (ts : List Turn) (ds : List Delivered) : State :=
  { pending := qs.map (Presented.mk c), turns := ts, delivered := ds }

/-- A turn that serves, whichever client it names, answers the first request of the only client. -/
theorem step_ofClient {c : Nat} {q : Request} {r : Response} {ts : List Turn} (hr : respond q = .ok r)
    (qs : List Request) (ds : List Delivered) (hserve : (State.ofClient c (q :: qs) ts ds).noReset) :
    step (.ofClient c (q :: qs) ts ds) = .next (.ofClient c qs ts.tail (ds ++ [⟨c, r⟩])) := by
  obtain ⟨hs, hrest⟩ := inService_of_one_client (s := .ofClient c (q :: qs) ts ds) (p := ⟨c, q⟩)
    (rest := qs.map (Presented.mk c)) rfl (by simp)
  rw [step_of_respond_ok hserve.next hs hr, State.deliver_eq, hrest]
  rfl

/-- As many turns that serve as there are requests give the only client its responses in request order. -/
theorem run_ofClient {c : Nat} {qs : List Request} {rs : List Response} {ts : List Turn} (ds : List Delivered)
    (hserve : (State.ofClient c qs ts ds).noReset) (hrs : qs.map respond = rs.map Except.ok) :
    Host.Core.run Sys2Proof.core qs.length (.ofClient c qs ts ds) =
      .next (.ofClient c [] (ts.drop qs.length) (ds ++ rs.map (Delivered.mk c))) := by
  induction qs generalizing rs ts ds with
  | nil =>
    obtain rfl : rs = [] := by simpa using hrs.symm
    simp
  | cons q qs ih =>
    cases rs with
    | nil => cases hrs
    | cons r rs =>
      obtain ⟨hr, hrest⟩ := List.cons.inj hrs
      have hserve' : (State.ofClient c qs ts.tail (ds ++ [⟨c, r⟩])).noReset :=
        fun t ht => hserve t (List.mem_of_mem_tail ht)
      rw [List.length_cons, run_of_next (step_ofClient hr qs ds hserve), ih _ hserve' hrest]
      simp

/-- Answering another request leaves a refused one waiting. -/
theorem RefusedWaiting.deliver {s : State} {e : IllegalReason} (h : RefusedWaiting s e) {p : Presented}
    {r : Response} (hs : s.inService = some p) (hr : respond p.request = .ok r) :
    RefusedWaiting (s.deliver p.client r) e := by
  obtain ⟨x, hx, he⟩ := h
  rcases eq_or_mem_retire_of_inService hs hx with rfl | hleft
  · cases hr.symm.trans he
  · exact ⟨x, hleft, he⟩

/-- As many turns that serve as there are requests reach a refused one, where one waits. -/
theorem run_of_refusedWaiting (n : Nat) {s : State} {e : IllegalReason} (hno : s.noReset)
    (h : RefusedWaiting s e) (hn : s.pending.length = n) :
    ∃ e', RefusedWaiting s e' ∧ Host.Core.run Sys2Proof.core n s = .refused (.illegalCommand e') := by
  induction n generalizing s with
  | zero =>
    obtain ⟨x, hx, -⟩ := h
    simp [List.length_eq_zero_iff.mp hn] at hx
  | succ n ih =>
    have hne : s.pending ≠ [] := List.ne_nil_of_length_eq_add_one hn
    obtain ⟨p, hs⟩ := exists_inService hne
    cases hp : respond p.request with
    | error e' =>
      exact ⟨e', ⟨p, mem_pending_of_inService hs, hp⟩, run_of_refused (step_of_respond_error hno.next hs hp) n⟩
    | ok r =>
      have hstep := step_of_respond_ok hno.next hs hp
      have hlen : (s.deliver p.client r).pending.length + 1 = s.pending.length := length_retire_pending hne
      obtain ⟨e', hrefused, hrun⟩ := ih (hno.deliver p.client r) (h.deliver hs hp) (by omega)
      exact ⟨e', hrefused.of_subset (step_pending_subset hstep), (run_of_next hstep n).trans hrun⟩

end Sys2Proof.Machine
end

section
/-! CLAIMS. The statements of 70_reset_and_hazards.md, settled. -/

namespace Sys2Proof.Machine

/-- Settles O29: a well-formed command is one that some word decodes to, and such a command has a response on every
request. -/
theorem everyOperationCompletes : Obligations.EveryOperationCompletes := by
  unfold Obligations.EveryOperationCompletes
  intro i s p hwf hs
  have hdecode : decode (encode i) = .ok i := (decode_eq_ok_iff (encode i) i).mpr ⟨rfl, hwf⟩
  obtain ⟨r, hr⟩ := response_of_decode hdecode p.request
  exact ⟨r, exec_of_response hs hr⟩

/-- Settles O42: the client of the first request is alone on the port, so any turn that serves answers it. -/
theorem firstRequestAfterResetIsAnswered : Obligations.FirstRequestAfterResetIsAnswered := by
  unfold Obligations.FirstRequestAfterResetIsAnswered
  intro c q ts hserve
  refine ⟨fun r hr => step_ofClient hr [] [] hserve, fun i hd => ?_⟩
  obtain ⟨r, hr⟩ := response_of_decode hd q
  exact ⟨r, respond_of_decode_ok hd hr⟩

/-- Settles O43: a bare reset passes its turn; a reset during a request retires the request in service, which the
turn's client decides. -/
theorem resetTakesOnlyTheRequestInProgress : Obligations.ResetTakesOnlyTheRequestInProgress := by
  unfold Obligations.ResetTakesOnlyTheRequestInProgress
  intro s
  refine ⟨fun h => ⟨s.passTurn, step_of_reset h, rfl, rfl, rfl⟩, fun c h => ?_⟩
  have hclient : s.turnClient = some c := turnClient_of_turn (.inr h)
  refine ⟨s.retire, step_of_resetDuring h, rfl, rfl, fun hnil => ?_, fun hwait => ?_, fun hnone => ?_⟩
  · rw [State.retire_pending, hnil, List.eraseIdx_nil]
  · obtain ⟨p, hs, rfl⟩ := inService_of_waiting hclient hwait
    obtain ⟨before, after, hsplit, hbefore, herase⟩ := inService_split hs
    exact ⟨before, p, after, hs, rfl, hsplit, hbefore, herase⟩
  · rw [State.retire_pending, serviceIdx_of_not_waiting hclient hnone, List.eraseIdx_zero]

/-- Settles O47: the run of a client alone on the port, from no responses given. -/
theorem observationIsTheResponsesInRequestOrder : Obligations.ObservationIsTheResponsesInRequestOrder := by
  unfold Obligations.ObservationIsTheResponsesInRequestOrder
  intro c qs rs ts hserve hrs
  exact run_ofClient [] hserve hrs

/-- Settles O48: each step answers a request and leaves the refused one waiting, or is refused. -/
theorem runWithARefusedRequestEndsRefused : Obligations.RunWithARefusedRequestEndsRefused := by
  unfold Obligations.RunWithARefusedRequestEndsRefused
  rintro s hno ⟨x, hx, e, he⟩
  obtain ⟨e', ⟨p, hp, hrefused⟩, hrun⟩ := run_of_refusedWaiting s.pending.length hno ⟨x, hx, he⟩ rfl
  exact ⟨p, hp, e', hrefused, hrun⟩

end Sys2Proof.Machine
end
